-- ==== Sys2Proof/Word.lean ====
section
/-! DEFINITION. The two value sizes of the hardware: the 32-bit word (R8, R11) and the byte of the host channels (R8). -/

namespace Sys2Proof

/-- A register value, a memory word, an instruction word, a pc index: 32 bits, unsigned (R8, R11, R18). -/
abbrev Word := BitVec 32

/-- One byte of the input or the output channel (R8). -/
abbrev Byte := BitVec 8

end Sys2Proof
end

