-- ==== Sys2Proof/Config.lean ====
section
/-! DEFINITION. The three OPEN parameters of the hardware (R8), and the configuration that the reset state carries. -/

namespace Sys2Proof

/-- The parameters a model takes as arguments (R8). They are fixed for a machine: the state carries them in a field
that no step and no host transaction writes, so a statement over every state is a statement over every configuration
(notes/assumptions/1.md). -/
structure Config where
  /-- `NSEG`: the number of segment slots. -/
  nseg : Nat
  /-- `SEG0_CAP`: the word capacity of slot 0. -/
  seg0Cap : Nat
  /-- `SEG_CAP`: the word capacity of each slot from 1 up. -/
  segCap : Nat
deriving DecidableEq, Repr

/-- The configuration the spec names for comparison with its source: every identifier and every index that a register
can hold is provided for (R8, D30). DESIGN CHOICE: `State.reset` carries it (notes/assumptions/1.md). -/
def Config.ideal : Config := { nseg := 2 ^ 32, seg0Cap := 2 ^ 32, segCap := 2 ^ 32 }

end Sys2Proof
end

