-- ==== Sys2Proof/Syntax.lean ====
section
/-! DEFINITION. The instructions of UM-14: one constructor per row of the opcode table (R2, R78), its operands in the
order of the assembler syntax (R83). -/

namespace Sys2Proof

/-- The eight register names (R18, R83). A register field is three bits wide, so there is no other index (R21). -/
inductive Reg where
  | r0 | r1 | r2 | r3 | r4 | r5 | r6 | r7
deriving DecidableEq, Repr

/-- The fourteen instructions (R2, R78). Fields that an instruction ignores (R76) are no operands here. -/
inductive Instr where
  /-- `cmov rA, rB, rC`, opcode 0 (R91). -/
  | cmov (a b c : Reg)
  /-- `sload rA, rB, rC`, opcode 1 (R92). -/
  | sload (a b c : Reg)
  /-- `sstore rA, rB, rC`, opcode 2 (R93): A and B address, C is stored. -/
  | sstore (a b c : Reg)
  /-- `add rA, rB, rC`, opcode 3 (R94). -/
  | add (a b c : Reg)
  /-- `mul rA, rB, rC`, opcode 4 (R95). -/
  | mul (a b c : Reg)
  /-- `div rA, rB, rC`, opcode 5 (R96). -/
  | div (a b c : Reg)
  /-- `nand rA, rB, rC`, opcode 6 (R97). -/
  | nand (a b c : Reg)
  /-- `halt`, opcode 7 (R99). -/
  | halt
  /-- `map rB, rC`, opcode 8 (R101). -/
  | map (b c : Reg)
  /-- `unmap rC`, opcode 9 (R102). -/
  | unmap (c : Reg)
  /-- `out rC`, opcode 10 (R104). -/
  | out (c : Reg)
  /-- `in rC`, opcode 11 (R105); the mnemonic itself is a word of Lean. -/
  | inp (c : Reg)
  /-- `loadprog rB, rC`, opcode 12 (R108). -/
  | loadprog (b c : Reg)
  /-- `li ra, imm`, opcode 13 (R111): the destination is the field at bits 27:25 (R74). -/
  | li (a : Reg) (imm : BitVec 25)
deriving DecidableEq, Repr

end Sys2Proof
end

