-- ==== Sys2Proof/WellFormed.lean ====
section
/-! DEFINITION. What is well formed: a configuration (R8) and a canonical instruction word (R77).

A term of `Instr` needs no check. Its register operands are the eight registers and its immediate has exactly 25 bits,
so the source's register-index check cannot fail (R21, R75) and every term of `Instr` is a well-formed instruction. -/

namespace Sys2Proof

/-- The bounds R8 puts on the three parameters. -/
def Config.wellFormed (c : Config) : Bool :=
  decide (1 ≤ c.nseg) && decide (c.nseg ≤ 2 ^ 32) && decide (c.seg0Cap ≤ 2 ^ 32) && decide (c.segCap ≤ c.seg0Cap)

/-- The bits of a word that its instruction ignores, by opcode (R71, R76): bits 27:9 in format R, and the register
fields the instruction's rule does not use. Format I (opcode 13) ignores none. An opcode above 13 selects no
instruction, and none of its bits has a use. -/
def ignoredBits (op : Nat) : Word :=
  if op ≤ 6 then 0x0FFFFE00
  else if op = 7 then 0x0FFFFFFF
  else if op = 8 ∨ op = 12 then 0x0FFFFFC0
  else if op ≤ 11 then 0x0FFFFFF8
  else if op = 13 then 0
  else 0xFFFFFFFF

/-- The word is the one an assembler writes for its instruction: the opcode is legal (R79) and every field the
instruction does not use is 0 (R77). -/
def canonicalWord (w : Word) : Bool :=
  decide (w.toNat / 2 ^ 28 ≤ 13) && decide (w &&& ignoredBits (w.toNat / 2 ^ 28) = 0)

end Sys2Proof
end

