-- ==== Sys2Proof/Decode.lean ====
section
/-! DEFINITION. The bit-field extractor (R12), the decoder (R69 to R74, R79, R80) and the encoder (R77). -/

namespace Sys2Proof

/-- `extract_unsigned(w, width, lsb)`: the field of `width` bits whose lowest bit is bit `lsb` (R12). -/
def extractUnsigned (w : Word) (width lsb : Nat) : BitVec width :=
  BitVec.ofNat width (w.toNat / 2 ^ lsb)

/-- `insert_unsigned(w, width, lsb, value)`: the old field is taken away and the new one added (R12). -/
def insertUnsigned (w : Word) (width lsb : Nat) (value : BitVec width) : Word :=
  BitVec.ofNat 32 (w.toNat - (extractUnsigned w width lsb).toNat * 2 ^ lsb + value.toNat * 2 ^ lsb)

/-- The register a three-bit field names (R72). -/
def Reg.ofBits (b : BitVec 3) : Reg :=
  match b.toNat with
  | 0 => .r0
  | 1 => .r1
  | 2 => .r2
  | 3 => .r3
  | 4 => .r4
  | 5 => .r5
  | 6 => .r6
  | _ => .r7

/-- The three-bit field that names a register (R77). -/
def Reg.bits : Reg → BitVec 3
  | .r0 => 0
  | .r1 => 1
  | .r2 => 2
  | .r3 => 3
  | .r4 => 4
  | .r5 => 5
  | .r6 => 6
  | .r7 => 7

/-- Bits 31:28, the opcode of every word (R69). -/
def opcodeField (w : Word) : BitVec 4 := extractUnsigned w 4 28

/-- Bits 8:6 of a format R word (R72). -/
def fieldA (w : Word) : Reg := Reg.ofBits (extractUnsigned w 3 6)

/-- Bits 5:3 of a format R word (R72). -/
def fieldB (w : Word) : Reg := Reg.ofBits (extractUnsigned w 3 3)

/-- Bits 2:0 of a format R word (R72). -/
def fieldC (w : Word) : Reg := Reg.ofBits (extractUnsigned w 3 0)

/-- Bits 27:25 of a format I word, the field the spec names `a` (R74). -/
def fieldDest (w : Word) : Reg := Reg.ofBits (extractUnsigned w 3 25)

/-- Bits 24:0 of a format I word (R74). -/
def fieldImm (w : Word) : BitVec 25 := extractUnsigned w 25 0

/-- Why a word is no instruction. -/
inductive DecodeError where
  /-- Bits 31:28 are 14 or 15 (R79): the step raises ILLEGAL_OPCODE. -/
  | illegalOpcode (op : BitVec 4)
deriving DecidableEq, Repr

/-- The decoder (R78, R85): total over all words, opcodes 14 and 15 rejected by name (R79, R80). -/
def decode (w : Word) : Except DecodeError Instr :=
  match (opcodeField w).toNat with
  | 0 => .ok (.cmov (fieldA w) (fieldB w) (fieldC w))
  | 1 => .ok (.sload (fieldA w) (fieldB w) (fieldC w))
  | 2 => .ok (.sstore (fieldA w) (fieldB w) (fieldC w))
  | 3 => .ok (.add (fieldA w) (fieldB w) (fieldC w))
  | 4 => .ok (.mul (fieldA w) (fieldB w) (fieldC w))
  | 5 => .ok (.div (fieldA w) (fieldB w) (fieldC w))
  | 6 => .ok (.nand (fieldA w) (fieldB w) (fieldC w))
  | 7 => .ok .halt
  | 8 => .ok (.map (fieldB w) (fieldC w))
  | 9 => .ok (.unmap (fieldC w))
  | 10 => .ok (.out (fieldC w))
  | 11 => .ok (.inp (fieldC w))
  | 12 => .ok (.loadprog (fieldB w) (fieldC w))
  | 13 => .ok (.li (fieldDest w) (fieldImm w))
  | _ => .error (.illegalOpcode (opcodeField w))

/-- `encR(op, A, B, C)` (R77). -/
def encR (op : BitVec 4) (a b c : Reg) : Word :=
  insertUnsigned (insertUnsigned (insertUnsigned (insertUnsigned 0 4 28 op) 3 6 a.bits) 3 3 b.bits) 3 0 c.bits

/-- `encI(a, imm)` (R77). -/
def encI (a : Reg) (imm : BitVec 25) : Word :=
  insertUnsigned (insertUnsigned (insertUnsigned 0 4 28 13) 3 25 a.bits) 25 0 imm

/-- The opcode of an instruction (R78). -/
def Instr.opcode : Instr → BitVec 4
  | .cmov _ _ _ => 0
  | .sload _ _ _ => 1
  | .sstore _ _ _ => 2
  | .add _ _ _ => 3
  | .mul _ _ _ => 4
  | .div _ _ _ => 5
  | .nand _ _ _ => 6
  | .halt => 7
  | .map _ _ => 8
  | .unmap _ => 9
  | .out _ => 10
  | .inp _ => 11
  | .loadprog _ _ => 12
  | .li _ _ => 13

/-- The word of an instruction, every field it does not use encoded as 0 (R77, R83). -/
def encode : Instr → Word
  | .cmov a b c => encR 0 a b c
  | .sload a b c => encR 1 a b c
  | .sstore a b c => encR 2 a b c
  | .add a b c => encR 3 a b c
  | .mul a b c => encR 4 a b c
  | .div a b c => encR 5 a b c
  | .nand a b c => encR 6 a b c
  | .halt => encR 7 .r0 .r0 .r0
  | .map b c => encR 8 .r0 b c
  | .unmap c => encR 9 .r0 .r0 c
  | .out c => encR 10 .r0 .r0 c
  | .inp c => encR 11 .r0 .r0 c
  | .loadprog b c => encR 12 .r0 b c
  | .li a imm => encI a imm

/-- The word whose bits the opcode table numbers: the low `nbits` bits of `w`, every bit above them 0. An instruction
is one word (R68), so the word is the whole layout. -/
def tableWord (nbits w : Nat) : Word := BitVec.ofNat 32 (w % 2 ^ nbits)

/-- What the decoder reads from the opcode table's bits. -/
def decodeTableWord (nbits w : Nat) : Option Instr :=
  match decode (tableWord nbits w) with
  | .ok i => some i
  | .error _ => none

end Sys2Proof
end

