-- ==== Sys2Proof/Machine/State.lean ====
section
/-! DEFINITION. The state of the unit (R18 to R45), why a step can stop, and the state after reset (R136). -/

namespace Sys2Proof.Machine

/-- The eight general registers `x[0]` to `x[7]` (R18). -/
structure RegFile where
  x0 : Word
  x1 : Word
  x2 : Word
  x3 : Word
  x4 : Word
  x5 : Word
  x6 : Word
  x7 : Word
deriving DecidableEq, Repr

/-- STATUS.STATE (R36, R37). -/
inductive RunState where
  /-- After reset: the host may load program words and no instruction runs. -/
  | idle
  /-- The unit fetches and executes. -/
  | running
  /-- A `halt` has executed; only reset leaves this state. -/
  | halted
  /-- A fault was raised or a program load overflowed; only reset leaves this state. -/
  | faulted
deriving DecidableEq, Repr

/-- STATUS.CAUSE (R40): the fault causes that have a name (R113). Codes 13 to 15 are reserved and have no name
(DEDUCED, notes/assumptions/10.md). -/
inductive Cause where
  /-- 0: the unit is not FAULTED. -/
  | none
  /-- 1: the opcode of the fetched word is 14 or 15. -/
  | illegalOpcode
  /-- 2: `div` with a zero divisor. -/
  | divideByZero
  /-- 3: `out` of a value above 255. -/
  | outputRange
  /-- 4: `map` with no free identifier or more words than the slot holds. -/
  | allocation
  /-- 5: `unmap` of an identifier never issued. -/
  | unmapOutOfRange
  /-- 6: `unmap` of identifier 0. -/
  | unmapZero
  /-- 7: `unmap` of an identifier in the reuse pool. -/
  | unmapNotLive
  /-- 8: `sload` or `sstore` outside a live segment. -/
  | dataAddress
  /-- 9: a fetch at or past the end of segment 0. -/
  | fetchAddress
  /-- 10: `loadprog` from an identifier that names no live segment. -/
  | programSource
  /-- 11: reserved for a check that cannot fail (R21); nothing raises it. -/
  | registerIndex
  /-- 12: a host LOAD past the capacity of segment 0. -/
  | loadOverflow
deriving DecidableEq, Repr

/-- One slot of the memory controller (R29, R30): its live bit, its length, and its words as a list of index and word
with indexes strictly rising and no word equal to 0, which is what an unlisted index holds
(DESIGN CHOICE, notes/assumptions/2.md and notes/assumptions/3.md). -/
structure Slot where
  live : Bool
  len : Nat
  words : List (Nat × Word)
deriving DecidableEq, Repr

/-- What an unlisted slot holds: not live, length 0 (R34), no word listed. -/
def Slot.empty : Slot := { live := false, len := 0, words := [] }

/-- The slots by identifier: identifiers strictly rising, no entry equal to `Slot.empty`. -/
abbrev Memory := List (Nat × Slot)

/-- Everything the spec gives the machine (R18 to R45, R136), and its parameters. -/
structure State where
  /-- The parameters NSEG, SEG0_CAP and SEG_CAP (R8): fixed for a machine, never written. -/
  cfg : Config
  /-- The register file (R18). -/
  regs : RegFile
  /-- The program counter's word index; its segment part is always 0 (R23). Also the status register `PC` (R41). -/
  pc : Word
  /-- The slots of the memory controller: `live[s]`, `len[s]` and `words[s][i]` (R29, R30). -/
  mem : Memory
  /-- `next_free`: the count of identifiers ever issued (R31). -/
  nextFree : Nat
  /-- The reuse pool, its top first (R32; notes/assumptions/11.md). -/
  pool : List Nat
  /-- STATUS.STATE (R37). -/
  run : RunState
  /-- STATUS.IN_WAIT (R38). -/
  inWait : Bool
  /-- STATUS.LAST_VALID (R39). -/
  lastValid : Bool
  /-- STATUS.LAST_OP (R39). -/
  lastOp : BitVec 4
  /-- STATUS.CAUSE (R40). -/
  cause : Cause
  /-- The status register `FAULT_WORD` (R42). -/
  faultWord : Word
  /-- `in_seq`, the parameter of the run that the host supplies (R106): never written. -/
  inSeq : List Byte
  /-- The input position: how many items have been consumed (R106, R136). -/
  inPos : Nat
  /-- `out_seq`, the output record, oldest byte first (R107). -/
  outSeq : List Byte
deriving DecidableEq, Repr

/-- Why there is no step: the unit performs `Step()` only while RUNNING (R84, R85). Nothing an instruction does ends
here; an instruction's fault is a next state in FAULTED (R117). DEDUCED: these are stuck states, U11
(notes/assumptions/6.md). -/
inductive Fault where
  /-- Raised by `step` in IDLE, where no instruction runs before the host's START (R37, R124). Safe: nothing steps. -/
  | notStarted
  /-- Raised by `step` in HALTED, which has no step (R87, R100, U11). Safe: nothing steps. -/
  | alreadyHalted
  /-- Raised by `step` in FAULTED, in which no fetch is made (R112, R119). Safe: nothing steps. -/
  | alreadyFaulted
deriving DecidableEq, Repr

/-- Why an instruction has no meaning. -/
inductive Refusal where
  /-- Raised by an arm of `exec` whose instruction has no meaning yet; every instruction has one, so nothing raises
  it. Safe: the model stops. -/
  | notModelled (mnemonic : String)
deriving DecidableEq, Repr

/-- The state after RESET (R136) of the machine with parameters `cfg`, for a run whose input sequence is `inSeq`: one
empty program segment, nothing else live, IDLE. -/
def State.resetWith (cfg : Config) (inSeq : List Byte) : State where
  cfg := cfg
  regs := { x0 := 0, x1 := 0, x2 := 0, x3 := 0, x4 := 0, x5 := 0, x6 := 0, x7 := 0 }
  pc := 0
  mem := [(0, { live := true, len := 0, words := [] })]
  nextFree := 1
  pool := []
  run := .idle
  inWait := false
  lastValid := false
  lastOp := 0
  cause := .none
  faultWord := 0
  inSeq := inSeq
  inPos := 0
  outSeq := []

/-- The machine right after reset (R136), with the parameters of `Config.ideal` and an empty input sequence
(DESIGN CHOICE, notes/assumptions/1.md and notes/assumptions/4.md). -/
def State.reset : State := State.resetWith Config.ideal []

end Sys2Proof.Machine
end

