-- ==== Sys2Proof/Machine/Ops.lean ====
section
/-! DEFINITION. The named operations over registers and memory that instructions share: the register accessors (R13),
the segment controller (R46 to R60), the end of an instruction (R85, R86), the one trap entry (R117) and the boot
helpers. -/

namespace Sys2Proof.Machine

/-! ### Lists of index and value, in canonical form -/

/-- The value at index `k`: what the list gives it, and `d` where the list gives nothing. -/
def sparseGet {α : Type} (d : α) : List (Nat × α) → Nat → α
  | [], _ => d
  | (j, v) :: m, k => if j = k then v else sparseGet d m k

/-- Makes `v` the value at index `k`. An entry equal to `d` is not kept, so that equal contents are equal lists. -/
def sparseSet {α : Type} [DecidableEq α] (d : α) (m : List (Nat × α)) (k : Nat) (v : α) : List (Nat × α) :=
  m.filter (fun p => decide (p.1 < k)) ++ (if v = d then [] else [(k, v)]) ++ m.filter (fun p => decide (k < p.1))

/-- The entries at indexes below `n`. -/
def sparseBelow {α : Type} (n : Nat) (m : List (Nat × α)) : List (Nat × α) := m.filter (fun p => decide (p.1 < n))

/-- The entries at index `n` and above. -/
def sparseFrom {α : Type} (n : Nat) (m : List (Nat × α)) : List (Nat × α) := m.filter (fun p => decide (n ≤ p.1))

/-- The canonical form: indexes strictly rising, no entry equal to `d`. -/
def sparseWf {α : Type} [DecidableEq α] (d : α) (m : List (Nat × α)) : Bool :=
  decide (m.Pairwise (fun p q => p.1 < q.1)) && m.all (fun p => decide (p.2 ≠ d))

/-- The canonical form of memory: the slots in it, and each slot's words. -/
def Memory.wf (m : Memory) : Bool :=
  sparseWf Slot.empty m && m.all (fun p => sparseWf (0 : Word) p.2.words)

/-! ### Registers -/

/-- `x[i]` (R13). -/
def RegFile.get (f : RegFile) : Reg → Word
  | .r0 => f.x0
  | .r1 => f.x1
  | .r2 => f.x2
  | .r3 => f.x3
  | .r4 => f.x4
  | .r5 => f.x5
  | .r6 => f.x6
  | .r7 => f.x7

/-- `x[i] <- v` (R13). No register is hardwired (R18). -/
def RegFile.set (f : RegFile) (r : Reg) (v : Word) : RegFile :=
  match r with
  | .r0 => { f with x0 := v }
  | .r1 => { f with x1 := v }
  | .r2 => { f with x2 := v }
  | .r3 => { f with x3 := v }
  | .r4 => { f with x4 := v }
  | .r5 => { f with x5 := v }
  | .r6 => { f with x6 := v }
  | .r7 => { f with x7 := v }

/-- `x[r]` in the state (R13). -/
def State.reg (s : State) (r : Reg) : Word := s.regs.get r

/-- `x[r] <- v` in the state (R13). -/
def State.setReg (s : State) (r : Reg) (v : Word) : State := { s with regs := s.regs.set r v }

/-! ### Slots -/

/-- `cap(s)`: the words a slot stores (R29). -/
def capacity (cfg : Config) (id : Nat) : Nat := if id = 0 then cfg.seg0Cap else cfg.segCap

/-- The slot of an identifier. -/
def State.slot (s : State) (id : Nat) : Slot := sparseGet Slot.empty s.mem id

/-- Replaces the slot of an identifier. -/
def State.setSlot (s : State) (id : Nat) (x : Slot) : State := { s with mem := sparseSet Slot.empty s.mem id x }

/-- `live[id]` (R30). -/
def State.live (s : State) (id : Nat) : Bool := (s.slot id).live

/-- `len[id]` (R30). -/
def State.len (s : State) (id : Nat) : Nat := (s.slot id).len

/-- The word a slot stores at an index. -/
def Slot.word (x : Slot) (i : Nat) : Word := sparseGet 0 x.words i

/-- `words[id][i]` (R29): the model's read of one unit of memory. -/
def State.word (s : State) (id i : Nat) : Word := (s.slot id).word i

/-- A slot with the word at one index replaced. -/
def Slot.setWord (x : Slot) (i : Nat) (v : Word) : Slot := { x with words := sparseSet 0 x.words i v }

/-- `words[id][i] <- v`. -/
def State.setWord (s : State) (id i : Nat) (v : Word) : State := s.setSlot id ((s.slot id).setWord i v)

/-! ### The segment controller -/

/-- The check of a data access: the identifier is a slot's, the segment is live, the index is inside it (R52). -/
def State.validAccess (s : State) (id idx : Word) : Bool :=
  decide (id.toNat < s.cfg.nseg) && s.live id.toNat && decide (idx.toNat < s.len id.toNat)

/-- `MemRead(s, i)` (R53). -/
def memRead (s : State) (id idx : Word) : Except Cause Word :=
  if s.validAccess id idx then .ok (s.word id.toNat idx.toNat) else .error .dataAddress

/-- `MemWrite(s, i, v)` (R54). -/
def memWrite (s : State) (id idx v : Word) : Except Cause State :=
  if s.validAccess id idx then .ok (s.setWord id.toNat idx.toNat v) else .error .dataAddress

/-- `Fetch()`: the word at the pc in segment 0 (R55). Only the bound is tested. -/
def fetch (s : State) : Except Cause Word :=
  if s.pc.toNat < s.len 0 then .ok (s.word 0 s.pc.toNat) else .error .fetchAddress

/-- The identifier the next `Map` binds: the top of the pool, else a fresh one, else none (R56). -/
def State.mapTarget (s : State) : Option Nat :=
  match s.pool with
  | id :: _ => some id
  | [] => if s.nextFree < s.cfg.nseg then some s.nextFree else none

/-- A slot made live with `n` words, each 0; words at index `n` and above stay as they were (R56). -/
def Slot.mapped (x : Slot) (n : Nat) : Slot := { live := true, len := n, words := sparseFrom n x.words }

/-- `Map(n)` (R56): both checks come before any change. Answers the identifier and the state with it bound. -/
def mapSegment (s : State) (n : Nat) : Except Cause (Nat × State) :=
  match s.mapTarget with
  | none => .error .allocation
  | some id =>
    if capacity s.cfg id < n then .error .allocation
    else .ok (id, { s.setSlot id ((s.slot id).mapped n) with
      nextFree := if s.pool.isEmpty then s.nextFree + 1 else s.nextFree
      pool := s.pool.tail })

/-- `Unmap(s)` (R57): the length and the words are left as they are. -/
def unmapSegment (s : State) (id : Nat) : Except Cause State :=
  if s.nextFree ≤ id then .error .unmapOutOfRange
  else if id = 0 then .error .unmapZero
  else if s.live id = false then .error .unmapNotLive
  else .ok { s.setSlot id { s.slot id with live := false } with pool := id :: s.pool }

/-- Slot 0 after the copy of `src` into it: `src`'s length and its words below that length; words at that length and
above stay as they were (R58). -/
def Slot.installed (dst src : Slot) : Slot :=
  { dst with len := src.len, words := sparseBelow src.len src.words ++ sparseFrom src.len dst.words }

/-- `Install(s)` (R58). -/
def installSegment (s : State) (id : Nat) : Except Cause State :=
  if id = 0 then .ok s
  else if s.cfg.nseg ≤ id ∨ s.live id = false then .error .programSource
  else .ok (s.setSlot 0 ((s.slot 0).installed (s.slot id)))

/-! ### The end of an instruction -/

/-- What every completed instruction leaves behind: the new pc, LAST_OP and LAST_VALID (R39, R85, R86;
notes/assumptions/12.md). -/
def State.complete (s : State) (op : BitVec 4) (pc' : Word) : State :=
  { s with pc := pc', lastOp := op, lastValid := true }

/-- Completion with the ordinary advance of the pc, modulo 2^32 (R26, R86). -/
def State.advance (s : State) (op : BitVec 4) : State := s.complete op (s.pc + 1)

/-! ### Taking a fault -/

/-- Trap entry (R117): the state, the cause and the fetched word are recorded, a wait ends, nothing else changes. The
hardware saves no pc, has no vector and runs no handler, and no instruction returns from a fault (R119). -/
def trapEntry (c : Cause) (w : Word) (s : State) : State :=
  { s with run := .faulted, cause := c, faultWord := w, inWait := false }

/-- The word at the pc, 0 where there is none. While an instruction executes this is the word it was fetched as: the pc
still holds its index (R24) and nothing has been written (R118). DEDUCED (notes/assumptions/7.md). -/
def State.fetchedWord (s : State) : Word :=
  match fetch s with
  | .ok w => w
  | .error _ => 0

/-- `raise Fault(c)` (R15): trap entry with the word the instruction was fetched as. -/
def raiseFault (c : Cause) (s : State) : State := trapEntry c s.fetchedWord s

/-! ### Placing an instruction for the next fetch -/

/-- The state in which the next step fetches `w`: the word stands at the pc in segment 0, segment 0 is live and reaches
past it, and the unit is RUNNING. It stands for a program load and START (R138, R124; notes/assumptions/5.md). -/
def State.placeAtPc (s : State) (w : Word) : State :=
  let x := (s.slot 0).setWord s.pc.toNat w
  { s.setSlot 0 { x with live := true, len := max x.len (s.pc.toNat + 1) } with run := .running }

end Sys2Proof.Machine
end

