-- ==== Sys2Proof/Machine/Flags.lean ====
section
/-! DEFINITION. The results of the arithmetic and logic unit (R98). The unit has no flags, condition codes or predicate
registers and records no overflow (R28), so a result is all there is to compute. Each is computed exactly on naturals
(R16) and then reduced to 32 bits. -/

namespace Sys2Proof.Machine

/-- `(x + y) mod 2^32` (R94). -/
def sumWord (x y : Word) : Word := BitVec.ofNat 32 (x.toNat + y.toNat)

/-- `(x * y) mod 2^32` (R95). -/
def productWord (x y : Word) : Word := BitVec.ofNat 32 (x.toNat * y.toNat)

/-- `x div y`, or the fault of a zero divisor (R96). -/
def quotientWord (x y : Word) : Except Cause Word :=
  if y.toNat = 0 then .error .divideByZero else .ok (BitVec.ofNat 32 (x.toNat / y.toNat))

/-- `~(x & y)` (R97), the complement being `2^32 - 1 - v` (R16). -/
def nandWord (x y : Word) : Word := BitVec.ofNat 32 (2 ^ 32 - 1 - (x.toNat &&& y.toNat))

end Sys2Proof.Machine
end

