-- ==== Sys2Proof/Machine/ArithmeticLogic.lean ====
section
/-! DEFINITION. Arithmetic and logic, opcodes 3 to 6 (R94 to R98). -/

namespace Sys2Proof.Machine

/-- `add rA, rB, rC` (R94). -/
def execAdd (a b c : Reg) (s : State) : Host.Outcome State Fault Refusal :=
  .next ((s.setReg a (sumWord (s.reg b) (s.reg c))).advance 3)

/-- `mul rA, rB, rC` (R95). -/
def execMul (a b c : Reg) (s : State) : Host.Outcome State Fault Refusal :=
  .next ((s.setReg a (productWord (s.reg b) (s.reg c))).advance 4)

/-- `div rA, rB, rC` (R96). -/
def execDiv (a b c : Reg) (s : State) : Host.Outcome State Fault Refusal :=
  match quotientWord (s.reg b) (s.reg c) with
  | .ok v => .next ((s.setReg a v).advance 5)
  | .error e => .next (raiseFault e s)

/-- `nand rA, rB, rC` (R97). -/
def execNand (a b c : Reg) (s : State) : Host.Outcome State Fault Refusal :=
  .next ((s.setReg a (nandWord (s.reg b) (s.reg c))).advance 6)

end Sys2Proof.Machine
end

