-- ==== Sys2Proof/Machine/ConditionalMove.lean ====
section
/-! DEFINITION. Conditional move, opcode 0 (R91). -/

namespace Sys2Proof.Machine

/-- `cmov rA, rB, rC` (R91). -/
def execCmov (a b c : Reg) (s : State) : Host.Outcome State Fault Refusal :=
  .next ((if s.reg c = 0 then s else s.setReg a (s.reg b)).advance 0)

end Sys2Proof.Machine
end

