-- ==== Sys2Proof/Machine/Halt.lean ====
section
/-! DEFINITION. Halt, opcode 7 (R99, R100). -/

namespace Sys2Proof.Machine

/-- `halt` (R99): the pc stays at the halt word, registers and memory keep their values. -/
def execHalt (s : State) : Host.Outcome State Fault Refusal :=
  .next { s.complete 7 s.pc with run := .halted }

end Sys2Proof.Machine
end

