-- ==== Sys2Proof/Machine/Operands.lean ====
section
/-! DEFINITION. The operand values that are not plain registers: the immediate (R75), the byte `out` sends (R104) and
the item `in` receives (R105). A register operand is `State.reg`, and a data address is a pair of them (R14). -/

namespace Sys2Proof.Machine

/-- The value of an immediate: zero-extended, not shifted (R75). -/
def immValue (imm : BitVec 25) : Word := BitVec.ofNat 32 imm.toNat

/-- The byte a register value emits: the whole value, which must be at most 255 (R49, R104). -/
def outByte (v : Word) : Option Byte := if 255 < v.toNat then none else some (BitVec.ofNat 8 v.toNat)

/-- One item of the input channel: a byte, or the end of the input (R15, R126). -/
inductive InputItem where
  | byte (b : Byte)
  | eof
deriving DecidableEq, Repr

/-- What `in` writes for an item: a byte zero-extended, all ones at the end of the input (R105). -/
def InputItem.value : InputItem → Word
  | .byte b => BitVec.ofNat 32 b.toNat
  | .eof => 0xFFFFFFFF

/-- The item the host supplies to the next request: the next byte of its sequence, and EOF to every request after the
last (R106). -/
def State.nextItem (s : State) : InputItem :=
  match s.inSeq[s.inPos]? with
  | some b => .byte b
  | none => .eof

end Sys2Proof.Machine
end

