-- ==== Sys2Proof/Machine/InputOutput.lean ====
section
/-! DEFINITION. Output and input, opcodes 10 and 11 (R104 to R107). -/

namespace Sys2Proof.Machine

/-- `out rC` (R104). It never waits (R107). -/
def execOut (c : Reg) (s : State) : Host.Outcome State Fault Refusal :=
  match outByte (s.reg c) with
  | some b => .next ({ s with outSeq := s.outSeq ++ [b] }.advance 10)
  | none => .next (raiseFault .outputRange s)

/-- The unit waits for an item (R38, R105): the pc and LAST_OP have not moved. -/
def State.beginWait (s : State) : State := { s with inWait := true }

/-- The host's item completes the waiting `in` (R105, R126). -/
def State.answerInput (s : State) (c : Reg) (item : InputItem) : State :=
  ({ s with inWait := false, inPos := s.inPos + 1 }.setReg c item.value).advance 11

/-- `in rC` (R105): one step, which the next item of the host's sequence ends. The state inside the wait is
`State.beginWait`; a host that never answers is not modelled (R106). DEDUCED (notes/assumptions/8.md). -/
def execInp (c : Reg) (s : State) : Host.Outcome State Fault Refusal :=
  .next (s.beginWait.answerInput c s.nextItem)

end Sys2Proof.Machine
end

