-- ==== Sys2Proof/Machine/LoadImmediate.lean ====
section
/-! DEFINITION. Load immediate, opcode 13 (R111). -/

namespace Sys2Proof.Machine

/-- `li ra, imm` (R111). -/
def execLi (a : Reg) (imm : BitVec 25) (s : State) : Host.Outcome State Fault Refusal :=
  .next ((s.setReg a (immValue imm)).advance 13)

end Sys2Proof.Machine
end

