-- ==== Sys2Proof/Machine/LoadProgram.lean ====
section
/-! DEFINITION. Load program, opcode 12 (R108 to R110). -/

namespace Sys2Proof.Machine

/-- `loadprog rB, rC` (R108): the pc is set, not advanced. -/
def execLoadprog (b c : Reg) (s : State) : Host.Outcome State Fault Refusal :=
  match installSegment s (s.reg b).toNat with
  | .ok s' => .next (s'.complete 12 (s.reg c))
  | .error e => .next (raiseFault e s)

end Sys2Proof.Machine
end

