-- ==== Sys2Proof/Machine/SegmentAccess.lean ====
section
/-! DEFINITION. Segment load and segment store, opcodes 1 and 2 (R92, R93). -/

namespace Sys2Proof.Machine

/-- `sload rA, rB, rC` (R92). -/
def execSload (a b c : Reg) (s : State) : Host.Outcome State Fault Refusal :=
  match memRead s (s.reg b) (s.reg c) with
  | .ok v => .next ((s.setReg a v).advance 1)
  | .error e => .next (raiseFault e s)

/-- `sstore rA, rB, rC` (R93). -/
def execSstore (a b c : Reg) (s : State) : Host.Outcome State Fault Refusal :=
  match memWrite s (s.reg a) (s.reg b) (s.reg c) with
  | .ok s' => .next (s'.advance 2)
  | .error e => .next (raiseFault e s)

end Sys2Proof.Machine
end

