-- ==== Sys2Proof/Machine/SegmentAllocation.lean ====
section
/-! DEFINITION. Map and unmap, opcodes 8 and 9 (R101 to R103). -/

namespace Sys2Proof.Machine

/-- `map rB, rC` (R101). -/
def execMap (b c : Reg) (s : State) : Host.Outcome State Fault Refusal :=
  match mapSegment s (s.reg c).toNat with
  | .ok (id, s') => .next ((s'.setReg b (BitVec.ofNat 32 id)).advance 8)
  | .error e => .next (raiseFault e s)

/-- `unmap rC` (R102). -/
def execUnmap (c : Reg) (s : State) : Host.Outcome State Fault Refusal :=
  match unmapSegment s (s.reg c).toNat with
  | .ok s' => .next (s'.advance 9)
  | .error e => .next (raiseFault e s)

end Sys2Proof.Machine
end

