-- ==== Sys2Proof/Machine/Step.lean ====
section
/-! DEFINITION. One step of the unit (R84, R85), and the state in which a given instruction runs next. -/

namespace Sys2Proof.Machine

/-- `Step()` (R85). Only a RUNNING unit steps (R84). The fetch check comes first, the opcode check second and the
instruction's own check last (R116); a fault is a next state in FAULTED (R117). Each meaning makes the pc update and
records LAST_OP itself, so nothing is added around `exec`. -/
def step (s : State) : Host.Outcome State Fault Refusal :=
  match s.run with
  | .idle => .fault .notStarted
  | .halted => .fault .alreadyHalted
  | .faulted => .fault .alreadyFaulted
  | .running =>
    match fetch s with
    | .error c => .next (trapEntry c 0 s)
    | .ok w =>
      match decode w with
      | .error (.illegalOpcode _) => .next (trapEntry .illegalOpcode w s)
      | .ok i => exec i s

/-- `s` with the instruction whose opcode-table bits are `w` placed where `step` fetches next, in a running unit. -/
def State.withFetchWord (s : State) (nbits w : Nat) : State := s.placeAtPc (tableWord nbits w)

end Sys2Proof.Machine
end

