-- ==== Sys2Proof/Machine/HostPort.lean ====
section
/-! DEFINITION. The host interface (R122): RESET, LOAD, START, READ_STATUS, the input channel, and the host-side loader
that packs a program file into words (R139). The output channel is the record `outSeq` (R107, R127). The host acts
between steps and during an `in` wait (R10, R123). -/

namespace Sys2Proof.Machine

/-! ### Status registers -/

/-- The code of STATUS.STATE (R36). -/
def RunState.code : RunState → Nat
  | .idle => 0
  | .running => 1
  | .halted => 2
  | .faulted => 3

/-- The code of a fault cause (R113). -/
def Cause.code : Cause → Nat
  | .none => 0
  | .illegalOpcode => 1
  | .divideByZero => 2
  | .outputRange => 3
  | .allocation => 4
  | .unmapOutOfRange => 5
  | .unmapZero => 6
  | .unmapNotLive => 7
  | .dataAddress => 8
  | .fetchAddress => 9
  | .programSource => 10
  | .registerIndex => 11
  | .loadOverflow => 12

/-- The status register `STATUS` (R36): STATE in bits 1:0, IN_WAIT in bit 2, LAST_VALID in bit 3, LAST_OP in bits 7:4,
CAUSE in bits 11:8, the rest 0. -/
def State.statusWord (s : State) : Word :=
  BitVec.ofNat 32 (s.run.code + 2 ^ 2 * s.inWait.toNat + 2 ^ 3 * s.lastValid.toNat + 2 ^ 4 * s.lastOp.toNat
    + 2 ^ 8 * s.cause.code)

/-- `READ_STATUS(addr)` (R125): no side effect, and 0 at an address that is no register's (R43). -/
def State.readStatus (s : State) (addr : Nat) : Word :=
  match addr with
  | 0 => s.statusWord
  | 1 => s.pc
  | 2 => s.faultWord
  | _ => 0

/-! ### Reset, load and start -/

/-- `RESET` (R123, R136, R137): accepted in every state. The parameters and the input sequence are no state of the unit
(R45), and the position in that sequence goes back to 0. -/
def hostReset (s : State) : State := State.resetWith s.cfg s.inSeq

/-- `LOAD(w)` (R138): appends a word to segment 0 in IDLE, faults when segment 0 is full, and is ignored in every other
state. -/
def hostLoad (w : Word) (s : State) : State :=
  match s.run with
  | .idle =>
    if s.len 0 = s.cfg.seg0Cap then { s with run := .faulted, cause := .loadOverflow, faultWord := w }
    else s.setSlot 0 { (s.slot 0).setWord (s.len 0) w with len := s.len 0 + 1 }
  | _ => s

/-- `START` (R124): IDLE becomes RUNNING; ignored in every other state. -/
def hostStart (s : State) : State :=
  match s.run with
  | .idle => { s with run := .running }
  | _ => s

/-! ### The input channel -/

/-- The destination of the `in` instruction that the unit is at, if it is RUNNING and at one. -/
def State.inputRequest (s : State) : Option Reg :=
  match s.run, fetch s with
  | .running, .ok w =>
    match decode w with
    | .ok (.inp c) => some c
    | _ => none
  | _, _ => none

/-- The unit at an `in` instruction begins to wait for the host (R38, R105). The step that executes the `in` passes
through this state; the host sees it, and may act in it, while it has not answered (R123, R125). -/
def State.enterWait (s : State) : State :=
  match s.inputRequest with
  | some _ => s.beginWait
  | none => s

/-- The host offers an item (R126): it completes the waiting `in`; while IN_WAIT = 0 it is not taken and not queued.
DESIGN CHOICE (notes/assumptions/13.md): any item is taken, also one that is not `State.nextItem`, such as a byte after
EOF, and the input position still moves by one. That the host answers in the order of its sequence is its duty (R106,
R128), which this function does not check. -/
def hostOffer (item : InputItem) (s : State) : State :=
  if s.inWait then
    match s.inputRequest with
    | some c => s.answerInput c item
    | none => s
  else s

/-! ### What the host does -/

/-- The host's transactions (R122). DESIGN CHOICE: `step` takes none of them (notes/assumptions/9.md). -/
inductive HostAction where
  | reset
  | load (w : Word)
  | start
  | readStatus (addr : Nat)
  | offer (item : InputItem)
deriving DecidableEq, Repr

/-- The state after a host transaction. What READ_STATUS returns is `State.readStatus`. -/
def hostAct : HostAction → State → State
  | .reset, s => hostReset s
  | .load w, s => hostLoad w s
  | .start, s => hostStart s
  | .readStatus _, s => s
  | .offer item, s => hostOffer item s

/-- LOAD of each word in order (R138, R140). -/
def loadAll : List Word → State → State
  | [], s => s
  | w :: ws, s => loadAll ws (hostLoad w s)

/-- The boot order (R140): RESET, LOAD of every word, START. -/
def boot (ws : List Word) (s : State) : State := hostStart (loadAll ws (hostReset s))

/-! ### The host-side loader -/

/-- The word of a group of four bytes, first byte most significant (R139). -/
def packGroup (b0 b1 b2 b3 : Byte) : Word :=
  insertUnsigned (insertUnsigned (insertUnsigned (insertUnsigned 0 8 24 b0) 8 16 b1) 8 8 b2) 8 0 b3

/-- `Pack` (R139): the words of a program file. A last group of one to three bytes is a word with its missing low bytes 0
(D14). -/
def pack : List Byte → List Word
  | [] => []
  | [a] => [packGroup a 0 0 0]
  | [a, b] => [packGroup a b 0 0]
  | [a, b, c] => [packGroup a b c 0]
  | a :: b :: c :: d :: rest => packGroup a b c d :: pack rest

end Sys2Proof.Machine
end

