-- ==== Sys2Proof/Safety.lean ====
section
/-! DEFINITION. The terms the statements use: how a run ends, the invariant of the unit, what can be reached, what a
program can observe, and what stays the same. -/

namespace Sys2Proof.Machine

/-! ### How a run ends -/

/-- The run has ended (R129). -/
def State.ended (s : State) : Bool := decide (s.run = .halted ∨ s.run = .faulted)

/-- The run has ended successfully: HALTED, with CAUSE = 0 (R129). -/
def State.successful (s : State) : Bool := decide (s.run = .halted ∧ s.cause = .none)

/-- What a run shows to the host (R129). -/
structure RunRecord where
  run : RunState
  cause : Cause
  pc : Word
  faultWord : Word
  outSeq : List Byte
  consumed : Nat
deriving DecidableEq, Repr

/-- The record of a run that has ended, none of one that has not (R129). -/
def State.record (s : State) : Option RunRecord :=
  if s.ended then
    some { run := s.run, cause := s.cause, pc := s.pc, faultWord := s.faultWord, outSeq := s.outSeq, consumed := s.inPos }
  else none

/-! ### The invariant -/

/-- What holds of the memory controller: (I1) to (I5) of R33, the ranges of R30 and R31, the storage of R29, and the
canonical form of the lists. -/
structure ControllerInv (s : State) : Prop where
  /-- The parameters are within the bounds of R8. -/
  cfg_wf : s.cfg.wellFormed = true
  /-- The memory lists are canonical. -/
  mem_wf : Memory.wf s.mem = true
  /-- (I1). -/
  live_zero : s.live 0 = true
  /-- `next_free` is in 1..NSEG (R31). -/
  next_pos : 1 ≤ s.nextFree
  next_le : s.nextFree ≤ s.cfg.nseg
  /-- (I2): an issued identifier is live or in the pool, never both. -/
  issued : ∀ id, id < s.nextFree → (s.live id = true ↔ id ∉ s.pool)
  /-- (I2): an identifier is in the pool at most once. -/
  pool_nodup : s.pool.Nodup
  /-- (I3): an identifier not issued is neither live nor in the pool. -/
  fresh : ∀ id, s.nextFree ≤ id → s.live id = false ∧ id ∉ s.pool
  /-- (I4). -/
  pool_pos : 0 ∉ s.pool
  /-- (I5), for the length of every slot (R30). -/
  len_le : ∀ id, s.len id ≤ capacity s.cfg id
  /-- A slot stores `cap(s)` words and no more (R29). -/
  words_in : ∀ id i, capacity s.cfg id ≤ i → s.word id i = 0

/-- What holds of the status registers (R36 to R42). -/
structure StatusInv (s : State) : Prop where
  /-- CAUSE is 0 exactly outside FAULTED (R40). -/
  cause_none : s.cause = .none ↔ s.run ≠ .faulted
  /-- REGISTER_INDEX is never raised (R21, R113). -/
  cause_named : s.cause ≠ .registerIndex
  /-- FAULT_WORD is 0 outside FAULTED, and for a fetch fault (R42). -/
  word_zero : s.run ≠ .faulted → s.faultWord = 0
  fetch_word_zero : s.cause = .fetchAddress → s.faultWord = 0
  /-- The unit waits only at an `in`, while RUNNING (R38). -/
  wait_at_in : s.inWait = true → s.inputRequest.isSome = true
  /-- LAST_OP is an opcode, and 0 until an instruction has completed (R39). -/
  last_op_le : s.lastOp.toNat ≤ 13
  last_op_zero : s.lastValid = false → s.lastOp = 0
  /-- HALTED is entered by `halt` alone (R37, R99). -/
  halted_by_halt : s.run = .halted → s.lastOp = 7 ∧ s.lastValid = true

/-- The invariant of the unit. -/
def State.Inv (s : State) : Prop := ControllerInv s ∧ StatusInv s

/-! ### Reachable states -/

/-- The states a unit with legal parameters can be in: after reset, after a host transaction in any of them, inside an
`in` wait, and after a step. The host may offer any item in a wait, so the histories of a host that breaks its duty to
answer in sequence order (R128) are among them (DESIGN CHOICE, notes/assumptions/13.md). -/
inductive Reachable : State → Prop where
  | reset (cfg : Config) (inSeq : List Byte) (h : cfg.wellFormed = true) : Reachable (State.resetWith cfg inSeq)
  | host (a : HostAction) {s : State} (h : Reachable s) : Reachable (hostAct a s)
  | wait {s : State} (h : Reachable s) : Reachable s.enterWait
  | step {s t : State} (h : Reachable s) (e : step s = .next t) : Reachable t

/-! ### What stays the same -/

/-- Segment `id` reads the same in both states: live or not, its length, and every word. -/
def SameSegment (s t : State) (id : Nat) : Prop :=
  t.live id = s.live id ∧ t.len id = s.len id ∧ ∀ i, t.word id i = s.word id i

/-- Every register but those listed holds what it held. -/
def RegsExcept (written : List Reg) (s t : State) : Prop := ∀ r, r ∉ written → t.reg r = s.reg r

/-- An instruction with opcode `op` has completed and has changed nothing but registers, the pc and what every
completed instruction records (R39): no memory, no other status, no channel. -/
def CompletedInRegs (op : BitVec 4) (s t : State) : Prop :=
  t = { s with regs := t.regs, pc := t.pc, lastOp := op, lastValid := true }

/-- The unit has faulted with cause `c`, `w` is recorded as the faulting word, and nothing else has changed (R117,
R118). -/
def FaultedAs (c : Cause) (w : Word) (s t : State) : Prop :=
  t = { s with run := .faulted, cause := c, faultWord := w, inWait := false }

/-- Every word with these bits in its opcode field decodes to the instruction `form` reads from its other fields
(R78: mask 0xF0000000). -/
def SelectedBy (pattern : Word) (form : Word → Instr) : Prop :=
  ∀ w : Word, w &&& 0xF0000000 = pattern → decode w = .ok (form w)

/-! ### What a program can observe of memory -/

/-- The two states agree on everything a program can observe (R34, R44): all but the length and the words of a slot that
is not live, and the words at or past the length of one that is. -/
def ObsEq (s t : State) : Prop :=
  t = { s with mem := t.mem } ∧
    ∀ id, t.live id = s.live id ∧
      (s.live id = true → t.len id = s.len id ∧ ∀ i, i < s.len id → t.word id i = s.word id i)

/-! ### Which registers and which faults an instruction may have -/

/-- The registers an instruction may write (R20). -/
def writtenRegs : Instr → List Reg
  | .cmov a _ _ => [a]
  | .sload a _ _ => [a]
  | .sstore _ _ _ => []
  | .add a _ _ => [a]
  | .mul a _ _ => [a]
  | .div a _ _ => [a]
  | .nand a _ _ => [a]
  | .halt => []
  | .map b _ => [b]
  | .unmap _ => []
  | .out _ => []
  | .inp c => [c]
  | .loadprog _ _ => []
  | .li a _ => [a]

/-- The registers an instruction reads as operands (R20). -/
def readRegs : Instr → List Reg
  | .cmov _ b c => [b, c]
  | .sload _ b c => [b, c]
  | .sstore a b c => [a, b, c]
  | .add _ b c => [b, c]
  | .mul _ b c => [b, c]
  | .div _ b c => [b, c]
  | .nand _ b c => [b, c]
  | .halt => []
  | .map _ c => [c]
  | .unmap c => [c]
  | .out c => [c]
  | .inp _ => []
  | .loadprog b c => [b, c]
  | .li _ _ => []

/-- The faults an instruction may raise of its own (R115). -/
def raisableCauses : Instr → List Cause
  | .cmov _ _ _ => []
  | .sload _ _ _ => [.dataAddress]
  | .sstore _ _ _ => [.dataAddress]
  | .add _ _ _ => []
  | .mul _ _ _ => []
  | .div _ _ _ => [.divideByZero]
  | .nand _ _ _ => []
  | .halt => []
  | .map _ _ => [.allocation]
  | .unmap _ => [.unmapOutOfRange, .unmapZero, .unmapNotLive]
  | .out _ => [.outputRange]
  | .inp _ => []
  | .loadprog _ _ => [.programSource]
  | .li _ _ => []

end Sys2Proof.Machine
end

