-- ==== Sys2Proof/Certificates/Slice0/Obligations.lean ====
section
/-! DEFINITION. The statements for the provers, from the numbered rules of the spec. -/

open Sys2Proof Sys2Proof.Machine

/-! ### Encoding -/

/-- R77: the two encoding functions have the value the rule gives, the fields come back out, an instruction's word has 0
in every field the instruction does not use, and decoding it gives that instruction, for every operand of every
instruction. -/
def Obligations.DecodeEncodeAgree : Prop :=
  (∀ op a b c, (encR op a b c).toNat = op.toNat * 2 ^ 28 + a.bits.toNat * 2 ^ 6 + b.bits.toNat * 2 ^ 3 + c.bits.toNat) ∧
  (∀ a imm, (encI a imm).toNat = 13 * 2 ^ 28 + a.bits.toNat * 2 ^ 25 + imm.toNat) ∧
  (∀ op a b c, opcodeField (encR op a b c) = op ∧ fieldA (encR op a b c) = a ∧ fieldB (encR op a b c) = b ∧
    fieldC (encR op a b c) = c) ∧
  (∀ a imm, opcodeField (encI a imm) = 13 ∧ fieldDest (encI a imm) = a ∧ fieldImm (encI a imm) = imm) ∧
  ∀ i, canonicalWord (encode i) = true ∧ decode (encode i) = .ok i

/-- R76, R77: among the words that decode to an instruction, its encoding is the one whose unused fields are 0. -/
def Obligations.CanonicalWordsReencode : Prop :=
  ∀ w i, decode w = .ok i → (encode i = w ↔ canonicalWord w = true)

/-- R80: decoding is total; words below 0xE0000000 decode to the instruction of their opcode and no others decode. -/
def Obligations.DecodingIsTotal : Prop :=
  ∀ w : Word,
    (w.toNat < 0xE0000000 → ∃ i, decode w = .ok i ∧ i.opcode.toNat = w.toNat / 2 ^ 28) ∧
    (0xE0000000 ≤ w.toNat → decode w = .error (.illegalOpcode (opcodeField w)))

/-- R76: two words that differ only in bits their instruction ignores decode to the same instruction with the same
operands. For format R these are bits 27:9 and the unused register fields. -/
def Obligations.IgnoredBitsHaveNoEffect : Prop :=
  (∀ w v : Word, w.toNat < 0xD0000000 → w &&& 0xF00001FF = v &&& 0xF00001FF →
    decode w = decode v ∧ ∃ i, decode w = .ok i) ∧
  (∀ w v : Word, w &&& 0xF0000000 = 0x80000000 → w &&& 0xF000003F = v &&& 0xF000003F → decode w = decode v) ∧
  (∀ w v : Word, (w &&& 0xF0000000 = 0x90000000 ∨ w &&& 0xF0000000 = 0xA0000000 ∨ w &&& 0xF0000000 = 0xB0000000) →
    w &&& 0xF0000007 = v &&& 0xF0000007 → decode w = decode v) ∧
  (∀ w v : Word, w &&& 0xF0000000 = 0xC0000000 → w &&& 0xF000003F = v &&& 0xF000003F → decode w = decode v) ∧
  (∀ w v : Word, w &&& 0xF0000000 = 0x70000000 → v &&& 0xF0000000 = 0x70000000 → decode w = decode v)

/-- Words written out from the spec's encodings decode to the instructions they stand for. -/
def Obligations.SpecWordsDecode : Prop :=
  decode 0x00000053 = .ok (.cmov .r1 .r2 .r3) ∧ decode 0x200000AC = .ok (.sstore .r2 .r5 .r4) ∧
  decode 0x8000000A = .ok (.map .r1 .r2) ∧ decode 0xC0000010 = .ok (.loadprog .r2 .r0) ∧
  decode 0xD7234567 = .ok (.li .r3 0x1234567)

/-- R12: extraction and insertion have the values the rule gives, what is inserted comes back out, and every bit outside
the field is unchanged. -/
def Obligations.InsertThenExtract : Prop :=
  ∀ (w : Word) (width lsb : Nat) (value : BitVec width), width + lsb ≤ 32 →
    (extractUnsigned w width lsb).toNat = w.toNat / 2 ^ lsb % 2 ^ width ∧
    (insertUnsigned w width lsb value).toNat =
      w.toNat - (extractUnsigned w width lsb).toNat * 2 ^ lsb + value.toNat * 2 ^ lsb ∧
    extractUnsigned (insertUnsigned w width lsb value) width lsb = value ∧
    ∀ k, k < lsb ∨ lsb + width ≤ k → (insertUnsigned w width lsb value).getLsbD k = w.getLsbD k

/-! ### Reset, boot and the host interface -/

/-- R136, R123: every piece of state after RESET, which is accepted in every state; `State.reset` is such a state. -/
def Obligations.ResetValues : Prop :=
  State.reset = hostAct .reset State.reset ∧
  ∀ (s : State), let t := hostAct .reset s
    (∀ r, t.reg r = 0) ∧ t.pc = 0 ∧ t.live 0 = true ∧ t.len 0 = 0 ∧
    (∀ id, id ≠ 0 → t.live id = false ∧ t.len id = 0) ∧ t.nextFree = 1 ∧ t.pool = [] ∧ t.run = .idle ∧
    t.inWait = false ∧ t.lastValid = false ∧ t.lastOp = 0 ∧ t.cause = .none ∧ t.readStatus 0 = 0 ∧
    t.readStatus 1 = 0 ∧ t.faultWord = 0 ∧ t.outSeq = [] ∧ t.inPos = 0

/-- The invariant holds after reset, for every legal configuration and every input sequence. -/
def Obligations.ResetSatisfiesInvariant : Prop :=
  ∀ cfg inSeq, cfg.wellFormed = true → (State.resetWith cfg inSeq).Inv

/-- R138: LOAD in IDLE appends a word to segment 0, or faults LOAD_OVERFLOW when segment 0 is full; everywhere else it
is ignored. -/
def Obligations.LoadAppendsOrOverflows : Prop :=
  ∀ (w : Word) (s : State),
    (s.run = .idle → s.len 0 = s.cfg.seg0Cap →
      hostAct (.load w) s = { s with run := .faulted, cause := .loadOverflow, faultWord := w }) ∧
    (s.run = .idle → s.len 0 ≠ s.cfg.seg0Cap → let t := hostAct (.load w) s
      t = { s with mem := t.mem } ∧
      t.len 0 = s.len 0 + 1 ∧ t.word 0 (s.len 0) = w ∧ (∀ i, i ≠ s.len 0 → t.word 0 i = s.word 0 i) ∧
      t.live 0 = s.live 0 ∧ ∀ id, id ≠ 0 → SameSegment s t id) ∧
    (s.run ≠ .idle → hostAct (.load w) s = s)

/-- R124: START makes an IDLE unit RUNNING and changes nothing else; in every other state it is ignored. -/
def Obligations.StartOnlyFromIdle : Prop :=
  ∀ s : State, (s.run = .idle → hostAct .start s = { s with run := .running }) ∧
    (s.run ≠ .idle → hostAct .start s = s)

/-- R125, R43: what a status read returns, and that it has no side effect. -/
def Obligations.ReadStatusRegisters : Prop :=
  ∀ (s : State) (addr : Nat), hostAct (.readStatus addr) s = s ∧
    s.readStatus 0 = s.statusWord ∧ s.readStatus 1 = s.pc ∧ s.readStatus 2 = s.faultWord ∧
    (2 < addr → s.readStatus addr = 0)

/-- R36: the fields of STATUS stand where the rule places them, the reserved bits read as 0, after reset every field is
0, and reading the status registers writes none. -/
def Obligations.StatusWordLayout : Prop :=
  (∀ s : State,
    extractUnsigned s.statusWord 2 0 = BitVec.ofNat 2 s.run.code ∧
    extractUnsigned s.statusWord 1 2 = BitVec.ofBool s.inWait ∧
    extractUnsigned s.statusWord 1 3 = BitVec.ofBool s.lastValid ∧
    extractUnsigned s.statusWord 4 4 = s.lastOp ∧
    extractUnsigned s.statusWord 4 8 = BitVec.ofNat 4 s.cause.code ∧
    extractUnsigned s.statusWord 20 12 = 0) ∧
  (RunState.idle.code = 0 ∧ RunState.running.code = 1 ∧ RunState.halted.code = 2 ∧ RunState.faulted.code = 3) ∧
  (Cause.none.code = 0 ∧ Cause.illegalOpcode.code = 1 ∧ Cause.divideByZero.code = 2 ∧ Cause.outputRange.code = 3 ∧
    Cause.allocation.code = 4 ∧ Cause.unmapOutOfRange.code = 5 ∧ Cause.unmapZero.code = 6 ∧
    Cause.unmapNotLive.code = 7 ∧ Cause.dataAddress.code = 8 ∧ Cause.fetchAddress.code = 9 ∧
    Cause.programSource.code = 10 ∧ Cause.registerIndex.code = 11 ∧ Cause.loadOverflow.code = 12) ∧
  (∀ cfg inSeq, (State.resetWith cfg inSeq).statusWord = 0) ∧
  ∀ s addr, (hostAct (.readStatus addr) s).readStatus 0 = s.statusWord

/-- R37, R100, R119: HALTED and FAULTED have no step, and of the host's transactions only RESET leaves them. -/
def Obligations.OnlyResetLeavesTerminalStates : Prop :=
  ∀ s : State, s.run = .halted ∨ s.run = .faulted →
    (∀ t, step s ≠ .next t) ∧ s.enterWait = s ∧ ∀ a, a ≠ .reset → hostAct a s = s

/-- R38, R105, R126: inside the wait only IN_WAIT differs; the item the host offers completes the `in`, and the step of
the `in` is that wait answered with the next item of the input sequence. While IN_WAIT = 0 an item is not taken. That an
item which is not the next of the sequence completes the `in` too is the model's choice (notes/assumptions/13.md). -/
def Obligations.OfferedItemCompletesInput : Prop :=
  (∀ (s : State) (c : Reg), s.inputRequest = some c →
    s.enterWait = { s with inWait := true } ∧
    step s = .next (hostAct (.offer s.nextItem) s.enterWait) ∧
    ∀ item, let t := hostAct (.offer item) s.enterWait
      t.inWait = false ∧ t.reg c = item.value ∧ RegsExcept [c] s t ∧
      t = { s with regs := t.regs, pc := s.pc + 1, lastOp := 11, lastValid := true, inWait := false,
                   inPos := s.inPos + 1 }) ∧
  ∀ (s : State) (item : InputItem), s.inWait = false → hostAct (.offer item) s = s

/-- R140: what holds before the first instruction of a program that fits into segment 0. -/
def Obligations.BootLoadsProgram : Prop :=
  ∀ (ws : List Word) (s : State), ws.length ≤ s.cfg.seg0Cap → let t := boot ws s
    t.run = .running ∧ t.pc = 0 ∧ (∀ r, t.reg r = 0) ∧ t.live 0 = true ∧ t.len 0 = ws.length ∧
    (∀ i (h : i < ws.length), t.word 0 i = ws[i]) ∧ (∀ id, id ≠ 0 → t.live id = false) ∧ t.pool = []

/-- R141: START with no program loaded makes the first fetch fault. -/
def Obligations.EmptyProgramFaultsAtFirstFetch : Prop :=
  ∀ s : State, ∃ t, step (boot [] s) = .next t ∧ FaultedAs .fetchAddress 0 (boot [] s) t ∧ t.pc = 0

/-- R139: the words of a program file of `n` bytes: `ceil(n/4)` of them, word `g` made of bytes `4g` to `4g+3`, the first
most significant, a missing byte 0. -/
def Obligations.PackBuildsBigEndianWords : Prop :=
  ∀ b : List Byte, (pack b).length = (b.length + 3) / 4 ∧
    ∀ g, g < (pack b).length → ((pack b).getD g 0).toNat =
      (b.getD (4 * g) 0).toNat * 2 ^ 24 + (b.getD (4 * g + 1) 0).toNat * 2 ^ 16 +
      (b.getD (4 * g + 2) 0).toNat * 2 ^ 8 + (b.getD (4 * g + 3) 0).toNat

/-! ### The dispatcher -/

/-- R85: a running unit whose fetched word decodes to an instruction steps as that instruction; nothing is added around
`exec`, which makes the pc update and records LAST_OP itself. -/
def Obligations.StepRunsDecodedInstruction : Prop :=
  ∀ (s : State) (w : Word) (i : Instr), s.run = .running → fetch s = .ok w → decode w = .ok i → step s = exec i s

/-- R55: the fetch reads segment 0 at the pc, and a pc at or past its end faults the step with FAULT_WORD 0. -/
def Obligations.FetchReadsSegmentZero : Prop :=
  ∀ s : State, (s.pc.toNat < s.len 0 → fetch s = .ok (s.word 0 s.pc.toNat)) ∧
    (s.len 0 ≤ s.pc.toNat → s.run = .running → ∃ t, step s = .next t ∧ FaultedAs .fetchAddress 0 s t)

/-- R79: a fetched word with opcode 14 or 15 faults ILLEGAL_OPCODE whatever its other bits hold, and changes nothing
else. -/
def Obligations.IllegalOpcodeFaults : Prop :=
  ∀ (s : State) (w : Word), s.run = .running → fetch s = .ok w → 0xE0000000 ≤ w.toNat →
    ∃ t, step s = .next t ∧ FaultedAs .illegalOpcode w s t

/-- R84, R87: a RUNNING unit always has a next state, and a unit in any other state has no step. -/
def Obligations.StepsExactlyWhileRunning : Prop :=
  ∀ s : State, (∃ t, step s = .next t) ↔ s.run = .running

/-! ### Each instruction: result, frame, and where it faults -/

/-- R91. -/
def Obligations.CmovMovesIfConditionNonzero : Prop :=
  SelectedBy 0x00000000 (fun w => .cmov (fieldA w) (fieldB w) (fieldC w)) ∧
  ∀ a b c s, encode (.cmov a b c) = encR 0 a b c ∧ ∃ t, exec (.cmov a b c) s = .next t ∧
    t.reg a = (if s.reg c = 0 then s.reg a else s.reg b) ∧ RegsExcept [a] s t ∧
    t.pc = s.pc + 1 ∧ CompletedInRegs 0 s t

/-- R92. -/
def Obligations.SloadReadsOrFaults : Prop :=
  SelectedBy 0x10000000 (fun w => .sload (fieldA w) (fieldB w) (fieldC w)) ∧
  ∀ a b c s, encode (.sload a b c) = encR 1 a b c ∧
    (((s.reg b).toNat < s.cfg.nseg ∧ s.live (s.reg b).toNat = true ∧ (s.reg c).toNat < s.len (s.reg b).toNat) →
      ∃ t, exec (.sload a b c) s = .next t ∧ t.reg a = s.word (s.reg b).toNat (s.reg c).toNat ∧
        RegsExcept [a] s t ∧ t.pc = s.pc + 1 ∧ CompletedInRegs 1 s t) ∧
    ((s.cfg.nseg ≤ (s.reg b).toNat ∨ s.live (s.reg b).toNat = false ∨ s.len (s.reg b).toNat ≤ (s.reg c).toNat) →
      ∃ t, exec (.sload a b c) s = .next t ∧ FaultedAs .dataAddress s.fetchedWord s t)

/-- R93. -/
def Obligations.SstoreWritesOrFaults : Prop :=
  SelectedBy 0x20000000 (fun w => .sstore (fieldA w) (fieldB w) (fieldC w)) ∧
  ∀ a b c s, encode (.sstore a b c) = encR 2 a b c ∧
    (((s.reg a).toNat < s.cfg.nseg ∧ s.live (s.reg a).toNat = true ∧ (s.reg b).toNat < s.len (s.reg a).toNat) →
      ∃ t, exec (.sstore a b c) s = .next t ∧ t.word (s.reg a).toNat (s.reg b).toNat = s.reg c ∧
        (∀ id i, ¬(id = (s.reg a).toNat ∧ i = (s.reg b).toNat) → t.word id i = s.word id i) ∧
        (∀ id, t.live id = s.live id ∧ t.len id = s.len id) ∧
        t = { s with mem := t.mem, pc := s.pc + 1, lastOp := 2, lastValid := true }) ∧
    ((s.cfg.nseg ≤ (s.reg a).toNat ∨ s.live (s.reg a).toNat = false ∨ s.len (s.reg a).toNat ≤ (s.reg b).toNat) →
      ∃ t, exec (.sstore a b c) s = .next t ∧ FaultedAs .dataAddress s.fetchedWord s t)

/-- R94. -/
def Obligations.AddWrapsModulo : Prop :=
  SelectedBy 0x30000000 (fun w => .add (fieldA w) (fieldB w) (fieldC w)) ∧
  ∀ a b c s, encode (.add a b c) = encR 3 a b c ∧ ∃ t, exec (.add a b c) s = .next t ∧
    (t.reg a).toNat = ((s.reg b).toNat + (s.reg c).toNat) % 2 ^ 32 ∧ RegsExcept [a] s t ∧
    t.pc = s.pc + 1 ∧ CompletedInRegs 3 s t

/-- R95. -/
def Obligations.MulWrapsModulo : Prop :=
  SelectedBy 0x40000000 (fun w => .mul (fieldA w) (fieldB w) (fieldC w)) ∧
  ∀ a b c s, encode (.mul a b c) = encR 4 a b c ∧ ∃ t, exec (.mul a b c) s = .next t ∧
    (t.reg a).toNat = ((s.reg b).toNat * (s.reg c).toNat) % 2 ^ 32 ∧ RegsExcept [a] s t ∧
    t.pc = s.pc + 1 ∧ CompletedInRegs 4 s t

/-- R96. -/
def Obligations.DivDividesOrFaults : Prop :=
  SelectedBy 0x50000000 (fun w => .div (fieldA w) (fieldB w) (fieldC w)) ∧
  ∀ a b c s, encode (.div a b c) = encR 5 a b c ∧
    (s.reg c ≠ 0 → ∃ t, exec (.div a b c) s = .next t ∧
      (t.reg a).toNat = (s.reg b).toNat / (s.reg c).toNat ∧ RegsExcept [a] s t ∧
      t.pc = s.pc + 1 ∧ CompletedInRegs 5 s t) ∧
    (s.reg c = 0 → ∃ t, exec (.div a b c) s = .next t ∧ FaultedAs .divideByZero s.fetchedWord s t)

/-- R97. -/
def Obligations.NandComplementsConjunction : Prop :=
  SelectedBy 0x60000000 (fun w => .nand (fieldA w) (fieldB w) (fieldC w)) ∧
  ∀ a b c s, encode (.nand a b c) = encR 6 a b c ∧ ∃ t, exec (.nand a b c) s = .next t ∧
    t.reg a = ~~~(s.reg b &&& s.reg c) ∧ RegsExcept [a] s t ∧ t.pc = s.pc + 1 ∧ CompletedInRegs 6 s t

/-- R99: everything stays but STATE, LAST_OP and LAST_VALID, the pc among it. -/
def Obligations.HaltStopsWithoutAdvance : Prop :=
  SelectedBy 0x70000000 (fun _ => .halt) ∧ encode .halt = 0x70000000 ∧
  ∀ s, ∃ t, exec .halt s = .next t ∧ t = { s with run := .halted, lastOp := 7, lastValid := true }

/-- R101, in the states the controller can be in. -/
def Obligations.MapBindsZeroedSegmentOrFaults : Prop :=
  SelectedBy 0x80000000 (fun w => .map (fieldB w) (fieldC w)) ∧
  ∀ b c s, ControllerInv s → encode (.map b c) = encR 8 .r0 b c ∧
    ((s.pool ≠ [] ∨ s.nextFree < s.cfg.nseg) → (s.reg c).toNat ≤ s.cfg.segCap →
      ∃ id t, exec (.map b c) s = .next t ∧
        ((∃ rest, s.pool = id :: rest ∧ t.pool = rest ∧ t.nextFree = s.nextFree) ∨
          (s.pool = [] ∧ id = s.nextFree ∧ t.pool = [] ∧ t.nextFree = s.nextFree + 1)) ∧
        id ≠ 0 ∧ id < s.cfg.nseg ∧ (t.reg b).toNat = id ∧ RegsExcept [b] s t ∧
        t.live id = true ∧ t.len id = (s.reg c).toNat ∧ (∀ i, i < (s.reg c).toNat → t.word id i = 0) ∧
        (∀ i, (s.reg c).toNat ≤ i → t.word id i = s.word id i) ∧ (∀ j, j ≠ id → SameSegment s t j) ∧
        t = { s with regs := t.regs, mem := t.mem, pool := t.pool, nextFree := t.nextFree, pc := s.pc + 1,
                     lastOp := 8, lastValid := true }) ∧
    (((s.pool = [] ∧ s.nextFree = s.cfg.nseg) ∨ s.cfg.segCap < (s.reg c).toNat) →
      ∃ t, exec (.map b c) s = .next t ∧ FaultedAs .allocation s.fetchedWord s t)

/-- R102, in the states the controller can be in. -/
def Obligations.UnmapRetiresOrFaults : Prop :=
  SelectedBy 0x90000000 (fun w => .unmap (fieldC w)) ∧
  ∀ c s, ControllerInv s → encode (.unmap c) = encR 9 .r0 .r0 c ∧
    (((s.reg c).toNat < s.nextFree ∧ s.reg c ≠ 0 ∧ (s.reg c).toNat ∉ s.pool) →
      ∃ t, exec (.unmap c) s = .next t ∧ t.live (s.reg c).toNat = false ∧ t.pool = (s.reg c).toNat :: s.pool ∧
        t.len (s.reg c).toNat = s.len (s.reg c).toNat ∧
        (∀ i, t.word (s.reg c).toNat i = s.word (s.reg c).toNat i) ∧
        (∀ j, j ≠ (s.reg c).toNat → SameSegment s t j) ∧
        t = { s with mem := t.mem, pool := t.pool, pc := s.pc + 1, lastOp := 9, lastValid := true }) ∧
    (s.nextFree ≤ (s.reg c).toNat →
      ∃ t, exec (.unmap c) s = .next t ∧ FaultedAs .unmapOutOfRange s.fetchedWord s t) ∧
    (s.reg c = 0 → ∃ t, exec (.unmap c) s = .next t ∧ FaultedAs .unmapZero s.fetchedWord s t) ∧
    ((s.reg c).toNat ∈ s.pool → ∃ t, exec (.unmap c) s = .next t ∧ FaultedAs .unmapNotLive s.fetchedWord s t)

/-- R104. -/
def Obligations.OutEmitsByteOrFaults : Prop :=
  SelectedBy 0xA0000000 (fun w => .out (fieldC w)) ∧
  ∀ c s, encode (.out c) = encR 10 .r0 .r0 c ∧
    ((s.reg c).toNat ≤ 255 → ∃ (b : Byte) (t : State), exec (.out c) s = .next t ∧ b.toNat = (s.reg c).toNat ∧
      t = { s with outSeq := s.outSeq ++ [b], pc := s.pc + 1, lastOp := 10, lastValid := true }) ∧
    (255 < (s.reg c).toNat → ∃ t, exec (.out c) s = .next t ∧ FaultedAs .outputRange s.fetchedWord s t)

/-- R105, R106: the item is the next of the input sequence, and the end of the input for ever after the last. A
unit at the `in` waits RUNNING with IN_WAIT = 1 and is otherwise unchanged, and the instruction is that wait answered with
the next item. -/
def Obligations.InReceivesNextItem : Prop :=
  SelectedBy 0xB0000000 (fun w => .inp (fieldC w)) ∧
  ∀ c s, encode (.inp c) = encR 11 .r0 .r0 c ∧ (∃ t, exec (.inp c) s = .next t ∧
    (∀ h : s.inPos < s.inSeq.length, (t.reg c).toNat = (s.inSeq[s.inPos]).toNat) ∧
    (s.inSeq.length ≤ s.inPos → t.reg c = 0xFFFFFFFF) ∧ RegsExcept [c] s t ∧
    t = { s with regs := t.regs, pc := s.pc + 1, lastOp := 11, lastValid := true, inWait := false,
                 inPos := s.inPos + 1 }) ∧
    (s.inputRequest = some c →
      s.enterWait = { s with inWait := true } ∧ s.enterWait.run = .running ∧
      exec (.inp c) s = .next (hostAct (.offer s.nextItem) s.enterWait))

/-- R108: the pc, segment 0 and everything else on each path, and where the instruction faults. -/
def Obligations.LoadprogInstallsAndJumpsOrFaults : Prop :=
  SelectedBy 0xC0000000 (fun w => .loadprog (fieldB w) (fieldC w)) ∧
  ∀ b c s, encode (.loadprog b c) = encR 12 .r0 b c ∧
    ((s.reg b = 0 ∨ ((s.reg b).toNat < s.cfg.nseg ∧ s.live (s.reg b).toNat = true)) →
      ∃ t, exec (.loadprog b c) s = .next t ∧ (s.reg b = 0 → t.mem = s.mem) ∧
        (s.reg b ≠ 0 → t.live 0 = s.live 0 ∧ t.len 0 = s.len (s.reg b).toNat ∧
          (∀ i, i < s.len (s.reg b).toNat → t.word 0 i = s.word (s.reg b).toNat i) ∧
          (∀ i, s.len (s.reg b).toNat ≤ i → t.word 0 i = s.word 0 i) ∧ ∀ j, j ≠ 0 → SameSegment s t j) ∧
        t = { s with mem := t.mem, pc := s.reg c, lastOp := 12, lastValid := true }) ∧
    ((s.reg b ≠ 0 ∧ (s.cfg.nseg ≤ (s.reg b).toNat ∨ s.live (s.reg b).toNat = false)) →
      ∃ t, exec (.loadprog b c) s = .next t ∧ FaultedAs .programSource s.fetchedWord s t)

/-- R109: with identifier 0 the instruction is a jump. -/
def Obligations.LoadprogJumpsWithinProgram : Prop :=
  ∀ b c s, s.reg b = 0 →
    exec (.loadprog b c) s = .next { s with pc := s.reg c, lastOp := 12, lastValid := true }

/-- R110: with another live identifier segment 0 becomes an exact copy of it, which fits, and the next fetch reads the
copy. -/
def Obligations.LoadprogReplacesProgram : Prop :=
  ∀ b c s, ControllerInv s → s.reg b ≠ 0 → (s.reg b).toNat < s.cfg.nseg → s.live (s.reg b).toNat = true →
    ∃ t, exec (.loadprog b c) s = .next t ∧ t.live 0 = true ∧ t.len 0 = s.len (s.reg b).toNat ∧
      (∀ i, i < s.len (s.reg b).toNat → t.word 0 i = s.word (s.reg b).toNat i) ∧
      (∀ j, j ≠ 0 → SameSegment s t j) ∧ t.len 0 ≤ s.cfg.seg0Cap ∧
      ((s.reg c).toNat < s.len (s.reg b).toNat → fetch t = .ok (s.word (s.reg b).toNat (s.reg c).toNat)) ∧
      (s.len (s.reg b).toNat ≤ (s.reg c).toNat → fetch t = .error .fetchAddress)

/-- R111, R75. -/
def Obligations.LiLoadsZeroExtendedImmediate : Prop :=
  SelectedBy 0xD0000000 (fun w => .li (fieldDest w) (fieldImm w)) ∧
  ∀ a imm s, encode (.li a imm) = encI a imm ∧ ∃ t, exec (.li a imm) s = .next t ∧
    (t.reg a).toNat = imm.toNat ∧ RegsExcept [a] s t ∧ t.pc = s.pc + 1 ∧ CompletedInRegs 13 s t

/-! ### Rules of the whole machine -/

/-- R88, R117, R118: a step that faults records the cause and the fetched word and changes nothing else. -/
def Obligations.FaultsArePrecise : Prop :=
  ∀ s t, step s = .next t → t.run = .faulted →
    t.cause ≠ .none ∧ FaultedAs t.cause s.fetchedWord s t ∧ (t.cause = .fetchAddress → s.fetchedWord = 0)

/-- R115: besides the fetch fault and the illegal opcode, an instruction raises only the faults listed for it. -/
def Obligations.InstructionsRaiseOnlyTheirFaults : Prop :=
  ∀ i s t, s.run = .running → exec i s = .next t → t.run = .faulted → t.cause ∈ raisableCauses i

/-- R39: an instruction that completes, `halt` and `loadprog` among them, records its opcode; one that faults leaves
LAST_OP and LAST_VALID; both are 0 after reset. -/
def Obligations.LastOpRecordsCompletedInstruction : Prop :=
  (∀ s t, step s = .next t →
    (t.run ≠ .faulted → t.lastOp = opcodeField s.fetchedWord ∧ t.lastValid = true) ∧
    (t.run = .faulted → t.lastOp = s.lastOp ∧ t.lastValid = s.lastValid)) ∧
  ∀ s, (hostAct .reset s).lastOp = 0 ∧ (hostAct .reset s).lastValid = false

/-- R24, R86: how the pc moves when an instruction completes, by opcode. -/
def Obligations.PcUpdateByOpcode : Prop :=
  ∀ s t w, step s = .next t → fetch s = .ok w → t.run ≠ .faulted →
    t.pc = (if w.toNat / 2 ^ 28 = 7 then s.pc
      else if w.toNat / 2 ^ 28 = 12 then s.reg (fieldC w)
      else BitVec.ofNat 32 ((s.pc.toNat + 1) % 2 ^ 32)) ∧
    t.run = (if w.toNat / 2 ^ 28 = 7 then .halted else .running)

/-- R20: an instruction writes no register but those the table lists for it, and what it does depends on no register but
those it reads: run from two register files that agree on those, it gives states that differ only in registers it has
not written. -/
def Obligations.RegistersReadAndWritten : Prop :=
  (∀ i s t, exec i s = .next t → RegsExcept (writtenRegs i) s t) ∧
  ∀ i s f t, (∀ r, r ∈ readRegs i → f.get r = s.reg r) → exec i s = .next t →
    ∃ g, exec i { s with regs := f } = .next { t with regs := g } ∧
      ∀ r, g.get r = t.reg r ∨ (g.get r = f.get r ∧ t.reg r = s.reg r)

/-- R110: segment 0 changes only by a store to it or by an install; the host's LOAD is no instruction. -/
def Obligations.ProgramChangesOnlyByStoreOrInstall : Prop :=
  ∀ i s t, ControllerInv s → exec i s = .next t → ¬SameSegment s t 0 →
    (∃ a b c, i = .sstore a b c ∧ s.reg a = 0) ∨ (∃ b c, i = .loadprog b c ∧ s.reg b ≠ 0)

/-- R30: no instruction but `loadprog` changes the length of a live segment, and it changes only segment 0's. -/
def Obligations.LiveLengthsChangeOnlyByInstall : Prop :=
  ∀ i s t id, ControllerInv s → exec i s = .next t → s.live id = true → t.len id ≠ s.len id →
    id = 0 ∧ ∃ b c, i = .loadprog b c

/-- R107: a step that completes an `out` appends exactly one byte to the output record, and no other step and no host
transaction but RESET changes it; an `out` that faults appends nothing. -/
def Obligations.OutputGrowsOnlyByOut : Prop :=
  (∀ s t, step s = .next t →
    (∃ c, decode s.fetchedWord = .ok (.out c) ∧ t.run = .running ∧
      ∃ b : Byte, t.outSeq = s.outSeq ++ [b] ∧ b.toNat = (s.reg c).toNat) ∨
    (t.outSeq = s.outSeq ∧ ∀ c, decode s.fetchedWord = .ok (.out c) → t.run = .faulted)) ∧
  ∀ a s, a ≠ .reset → (hostAct a s).outSeq = s.outSeq

/-- R9, R106: the input sequence is all a step depends on from outside, and only `in` depends on it: from two states that
differ only in the input sequence and the position in it, every other instruction does the same. -/
def Obligations.OnlyInDependsOnInput : Prop :=
  ∀ i s t q n, (∀ c, i ≠ .inp c) → exec i s = .next t →
    t.inPos = s.inPos ∧ exec i { s with inSeq := q, inPos := n } = .next { t with inSeq := q, inPos := n }

/-- R45: the parameters and the input sequence are written by no step and by no host transaction. -/
def Obligations.ParametersNeverChange : Prop :=
  (∀ s t, step s = .next t → t.cfg = s.cfg ∧ t.inSeq = s.inSeq) ∧
  ∀ a s, (hostAct a s).cfg = s.cfg ∧ (hostAct a s).inSeq = s.inSeq

/-- R84, R129: a step goes on, or ends the run in HALTED by a `halt`, or ends it in FAULTED. -/
def Obligations.RunEndsByHaltOrFault : Prop :=
  ∀ s t, step s = .next t →
    (t.run = .running ∧ t.ended = false) ∨ (t.run = .halted ∧ decode s.fetchedWord = .ok .halt ∧ t.ended = true) ∨
    (t.run = .faulted ∧ t.ended = true ∧ t.successful = false)

/-- R66, R143: a store into the word after the store is what the very next step runs. -/
def Obligations.StoredWordIsRunNext : Prop :=
  ∀ a b c s i, s.run = .running → s.reg a = 0 → s.reg b = s.pc + 1 → 0 < s.cfg.nseg → s.live 0 = true →
    (s.reg b).toNat < s.len 0 → decode (s.reg c) = .ok i →
    ∃ t, exec (.sstore a b c) s = .next t ∧ fetch t = .ok (s.reg c) ∧ step t = exec i t

/-- R103: two identifiers freed one after the other by instructions that complete are handed out again in the opposite
order by the next two `map` instructions that complete, each as a segment of zeros. -/
def Obligations.ReuseIsLastFreedFirst : Prop :=
  ∀ c d b e n m s s₁ s₂ s₃ s₄, s.run = .running →
    exec (.unmap c) s = .next s₁ → s₁.run = .running → exec (.unmap d) s₁ = .next s₂ → s₂.run = .running →
    exec (.map b n) s₂ = .next s₃ → s₃.run = .running → exec (.map e m) s₃ = .next s₄ → s₄.run = .running →
    s₃.reg b = s.reg d ∧ s₄.reg e = s.reg c ∧ s₄.pool = s.pool ∧ s₄.nextFree = s.nextFree ∧
    s₃.live (s.reg d).toNat = true ∧ (∀ i, i < s₃.len (s.reg d).toNat → s₃.word (s.reg d).toNat i = 0) ∧
    s₄.live (s.reg c).toNat = true ∧ (∀ i, i < s₄.len (s.reg c).toNat → s₄.word (s.reg c).toNat i = 0)

/-- R60: a segment of length 0 can be mapped whenever an identifier is available, every access to it faults, and it can
be unmapped. -/
def Obligations.ZeroLengthSegmentFaultsEveryAccess : Prop :=
  ∀ b c s, ControllerInv s → s.reg c = 0 → (s.pool ≠ [] ∨ s.nextFree < s.cfg.nseg) →
    ∃ t, exec (.map b c) s = .next t ∧ t.live (t.reg b).toNat = true ∧ t.len (t.reg b).toNat = 0 ∧
      (∀ a i, ∃ u, exec (.sload a b i) t = .next u ∧ FaultedAs .dataAddress t.fetchedWord t u) ∧
      (∀ i v, ∃ u, exec (.sstore b i v) t = .next u ∧ FaultedAs .dataAddress t.fetchedWord t u) ∧
      (∃ u, exec (.unmap b) t = .next u ∧ u.live (t.reg b).toNat = false ∧ u.run = s.run) ∧
      ∀ p, ∃ u, exec (.loadprog b p) t = .next u ∧ u.len 0 = 0 ∧ fetch u = .error .fetchAddress

/-- R98: the identities the rule draws from the four operations. -/
def Obligations.IntegerLawsOfTheUnit : Prop :=
  ∀ a b : Word, nandWord b b = ~~~b ∧ sumWord (sumWord a (nandWord b b)) 1 = a - b ∧
    nandWord (nandWord a b) (nandWord a b) = a &&& b ∧ nandWord (nandWord a a) (nandWord b b) = a ||| b

/-- R91: the all-zero word is a conditional move that changes nothing but the pc (and what every completed instruction
records, R39). -/
def Obligations.ZeroWordOnlyAdvances : Prop :=
  ∀ s : State, s.run = .running → fetch s = .ok 0 →
    step s = .next { s with pc := s.pc + 1, lastOp := 0, lastValid := true }

/-! ### Invariants -/

/-- Every step keeps the invariant, from every state that has it. -/
def Obligations.StepKeepsInvariant : Prop := ∀ s t, s.Inv → step s = .next t → t.Inv

/-- Every host transaction keeps the invariant, and so does entering an `in` wait. An offered item is any item
(notes/assumptions/13.md). -/
def Obligations.HostKeepsInvariant : Prop := ∀ s, s.Inv → s.enterWait.Inv ∧ ∀ a, (hostAct a s).Inv

/-- R33: in every state a unit with legal parameters can reach, (I1) to (I5) hold. -/
def Obligations.ReachableControllerInvariants : Prop :=
  ∀ s, Reachable s →
    s.live 0 = true ∧
    (∀ id, id < s.nextFree → (s.live id = true ∨ id ∈ s.pool) ∧ ¬(s.live id = true ∧ id ∈ s.pool) ∧
      s.pool.count id ≤ 1) ∧
    (∀ id, s.nextFree ≤ id → s.live id = false ∧ id ∉ s.pool) ∧
    0 ∉ s.pool ∧
    (∀ id, s.live id = true → s.len id ≤ capacity s.cfg id)

/-- Every step keeps memory in its canonical form, whatever else holds of the state. -/
def Obligations.StepKeepsMemoryCanonical : Prop :=
  ∀ s t, Memory.wf s.mem = true → step s = .next t → Memory.wf t.mem = true

/-- R34, R44: the words of a slot that is not live, its length, and the words at or past a live segment's length are
never observed: from two states that differ only in them, a step gives the same outcome, and next states that again
differ only in such. -/
def Obligations.UnspecifiedWordsAreNeverObserved : Prop :=
  ∀ s t, s.live 0 = true → ObsEq s t →
    (∀ s', step s = .next s' → ∃ t', step t = .next t' ∧ ObsEq s' t') ∧
    (∀ f, step s = .fault f → step t = .fault f) ∧ ∀ r, step s ≠ .refused r
end

