-- ==== Sys2Proof/Laws/Decode.lean ====
section
/-! SUPPORT. The laws of the register fields and of the decoder. -/

namespace Sys2Proof

@[simp] theorem Reg.ofBits_bits (r : Reg) : Reg.ofBits r.bits = r := by cases r <;> rfl

theorem Reg.bits_ofBits (b : BitVec 3) : (Reg.ofBits b).bits = b := by revert b; decide

/-- A field as a natural number (R12). -/
theorem toNat_extractUnsigned (w : Word) (width lsb : Nat) :
    (extractUnsigned w width lsb).toNat = w.toNat / 2 ^ lsb % 2 ^ width := by
  simp [extractUnsigned]

/-- The opcode of a word as a natural number. -/
theorem toNat_opcodeField (w : Word) : (opcodeField w).toNat = w.toNat / 2 ^ 28 := by
  rw [opcodeField, toNat_extractUnsigned]; have := w.isLt; omega

/-- What the decoder answers: an instruction whose opcode is the word's, or the error for an opcode above 13. -/
theorem decode_cases (w : Word) :
    (∃ i, decode w = .ok i ∧ i.opcode = opcodeField w ∧ (opcodeField w).toNat ≤ 13) ∨
      (decode w = .error (.illegalOpcode (opcodeField w)) ∧ 14 ≤ (opcodeField w).toNat) := by
  unfold decode
  have e : ∀ n : Nat, (opcodeField w).toNat = n → opcodeField w = BitVec.ofNat 4 n := by
    intro n h; rw [← h]; simp
  split <;> rename_i h
  case h_15 =>
    refine .inr ⟨rfl, ?_⟩
    simp only [imp_false] at *
    omega
  all_goals exact .inl ⟨_, rfl, (e _ h).symm, by omega⟩

/-- What insertion does (R12): the bits above the field, the new field, and the bits below it. -/
theorem toNat_insertUnsigned (w : Word) (width lsb : Nat) (v : BitVec width) (hl : width + lsb ≤ 32) :
    (insertUnsigned w width lsb v).toNat =
      w.toNat / 2 ^ (lsb + width) * 2 ^ (lsb + width) + v.toNat * 2 ^ lsb + w.toNat % 2 ^ lsb := by
  unfold insertUnsigned
  rw [toNat_extractUnsigned, BitVec.toNat_ofNat]
  have hw := w.isLt
  have hv := v.isLt
  have hP : 0 < 2 ^ lsb := by positivity
  have hPQ : 2 ^ (lsb + width) = 2 ^ lsb * 2 ^ width := Nat.pow_add ..
  have h32 : 2 ^ 32 = 2 ^ (lsb + width) * 2 ^ (32 - (lsb + width)) := by rw [← Nat.pow_add]; congr 1; omega
  have d1 := Nat.div_add_mod w.toNat (2 ^ lsb)
  have d2 := Nat.div_add_mod (w.toNat / 2 ^ lsb) (2 ^ width)
  rw [Nat.div_div_eq_div_mul, ← hPQ] at d2
  have q : w.toNat / 2 ^ (lsb + width) < 2 ^ (32 - (lsb + width)) := Nat.div_lt_of_lt_mul (by rw [← h32]; exact hw)
  have m1 := Nat.mod_lt w.toNat hP
  generalize w.toNat / 2 ^ (lsb + width) = high at *
  generalize w.toNat % 2 ^ lsb = low at *
  generalize w.toNat / 2 ^ lsb % 2 ^ width = field at *
  have e : w.toNat = high * (2 ^ lsb * 2 ^ width) + field * 2 ^ lsb + low := by rw [← d1, ← d2]; ring
  have e' : w.toNat - field * 2 ^ lsb + v.toNat * 2 ^ lsb = high * 2 ^ (lsb + width) + v.toNat * 2 ^ lsb + low := by
    rw [e, hPQ]; omega
  rw [e']
  apply Nat.mod_eq_of_lt
  rw [h32, hPQ]
  have a1 : v.toNat * 2 ^ lsb + low < 2 ^ lsb * 2 ^ width := by nlinarith
  have a2 : (high + 1) * (2 ^ lsb * 2 ^ width) ≤ 2 ^ (32 - (lsb + width)) * (2 ^ lsb * 2 ^ width) :=
    Nat.mul_le_mul_right _ q
  nlinarith

/-- The mask of the opcode table keeps the opcode field alone (R69). -/
theorem toNat_and_opcodeMask (w : Word) : (w &&& 0xF0000000).toNat = w.toNat / 2 ^ 28 * 2 ^ 28 := by
  have hm : 0xF0000000#32 = (BitVec.allOnes 32 >>> 28) <<< 28 := by decide
  have h : w &&& 0xF0000000#32 = (w >>> 28) <<< 28 := by
    rw [hm]
    apply BitVec.eq_of_getLsbD_eq
    intro i hi
    simp only [BitVec.getLsbD_and, BitVec.getLsbD_shiftLeft, BitVec.getLsbD_ushiftRight, BitVec.getLsbD_allOnes]
    by_cases h28 : i < 28
    · simp [h28]
    · have e : 28 + (i - 28) = i := by omega
      simp [h28, hi, e]
  show (w &&& 0xF0000000#32).toNat = _
  rw [h]
  simp only [BitVec.toNat_shiftLeft, BitVec.toNat_ushiftRight, Nat.shiftRight_eq_div_pow, Nat.shiftLeft_eq]
  have := w.isLt
  omega

/-- The opcode of a word that the opcode table's mask selects. -/
theorem opcode_of_mask {w p : Word} (h : w &&& 0xF0000000 = p) : (opcodeField w).toNat = p.toNat / 2 ^ 28 := by
  rw [toNat_opcodeField, ← h, toNat_and_opcodeMask]; omega

/-- The opcode of a format R word (R77). -/
theorem opcode_encR (op : BitVec 4) (a b c : Reg) : (encR op a b c).toNat / 2 ^ 28 = op.toNat := by
  have h2 := a.bits.isLt
  have h3 := b.bits.isLt
  have h4 := c.bits.isLt
  unfold encR
  iterate 4 rw [toNat_insertUnsigned _ _ _ _ (by omega)]
  simp
  omega

/-- The opcode of a format I word (R77). -/
theorem opcode_encI (a : Reg) (imm : BitVec 25) : (encI a imm).toNat / 2 ^ 28 = 13 := by
  have h2 := a.bits.isLt
  have h3 := imm.isLt
  unfold encI
  iterate 3 rw [toNat_insertUnsigned _ _ _ _ (by omega)]
  simp
  omega

end Sys2Proof
end

