-- ==== Sys2Proof/Laws/Sparse.lean ====
section
/-! SUPPORT. The laws of the lists of index and value: reading after writing, and the canonical form. -/

namespace Sys2Proof.Machine

section
variable {α : Type}

@[simp] theorem sparseGet_nil (d : α) (k : Nat) : sparseGet d [] k = d := rfl

theorem sparseGet_cons (d : α) (p : Nat × α) (m : List (Nat × α)) (k : Nat) :
    sparseGet d (p :: m) k = if p.1 = k then p.2 else sparseGet d m k := rfl

/-- An index that no entry has reads as the value of an unlisted one. -/
theorem sparseGet_of_absent (d : α) (m : List (Nat × α)) (k : Nat) (h : ∀ p ∈ m, p.1 ≠ k) : sparseGet d m k = d := by
  induction m with
  | nil => rfl
  | cons p m ih =>
    rw [sparseGet_cons, if_neg (h p (by simp)), ih fun q hq => h q (List.mem_cons_of_mem _ hq)]

theorem sparseGet_append_right (d : α) (m n : List (Nat × α)) (k : Nat) (h : ∀ p ∈ m, p.1 ≠ k) :
    sparseGet d (m ++ n) k = sparseGet d n k := by
  induction m with
  | nil => rfl
  | cons p m ih =>
    rw [List.cons_append, sparseGet_cons, if_neg (h p (by simp)), ih fun q hq => h q (List.mem_cons_of_mem _ hq)]

theorem sparseGet_append_left (d : α) (m n : List (Nat × α)) (k : Nat) (h : ∀ p ∈ n, p.1 ≠ k) :
    sparseGet d (m ++ n) k = sparseGet d m k := by
  induction m with
  | nil => exact sparseGet_of_absent d n k h
  | cons p m ih => rw [List.cons_append, sparseGet_cons, sparseGet_cons, ih]

/-- Keeping the entries whose index passes a test keeps what those indexes read as and clears the others. -/
theorem sparseGet_filter (d : α) (m : List (Nat × α)) (P : Nat → Bool) (k : Nat) :
    sparseGet d (m.filter fun p => P p.1) k = if P k then sparseGet d m k else d := by
  induction m with
  | nil => simp
  | cons p m ih =>
    by_cases hp : P p.1 = true
    · rw [List.filter_cons, if_pos hp, sparseGet_cons, sparseGet_cons, ih]
      by_cases hk : p.1 = k
      · subst hk; simp [hp]
      · simp [hk]
    · rw [List.filter_cons, if_neg hp, ih, sparseGet_cons]
      by_cases hk : p.1 = k
      · subst hk; simp [hp]
      · simp [hk]

/-- Reading below `n` in what is kept below `n`. -/
theorem sparseGet_below (d : α) (m : List (Nat × α)) (n k : Nat) :
    sparseGet d (sparseBelow n m) k = if k < n then sparseGet d m k else d := by
  have h := sparseGet_filter d m (fun j => decide (j < n)) k
  simpa [sparseBelow] using h

/-- Reading at or past `n` in what is kept from `n` up. -/
theorem sparseGet_from (d : α) (m : List (Nat × α)) (n k : Nat) :
    sparseGet d (sparseFrom n m) k = if n ≤ k then sparseGet d m k else d := by
  have h := sparseGet_filter d m (fun j => decide (n ≤ j)) k
  simpa [sparseFrom] using h

/-- Reading in one list's entries below `n` followed by another's from `n` up. -/
theorem sparseGet_below_append_from (d : α) (m m' : List (Nat × α)) (n k : Nat) :
    sparseGet d (sparseBelow n m ++ sparseFrom n m') k = if k < n then sparseGet d m k else sparseGet d m' k := by
  by_cases hk : k < n
  · rw [sparseGet_append_left, sparseGet_below, if_pos hk]
    · rw [if_pos hk]
    · intro p hp
      simp only [sparseFrom, List.mem_filter, decide_eq_true_eq] at hp
      omega
  · rw [sparseGet_append_right, sparseGet_from, if_pos (by omega)]
    · rw [if_neg hk]
    · intro p hp
      simp only [sparseBelow, List.mem_filter, decide_eq_true_eq] at hp
      omega

/-- What a list reads as is its unlisted value or the value of one of its entries. -/
theorem sparseGet_mem (d : α) (m : List (Nat × α)) (k : Nat) : sparseGet d m k = d ∨ (k, sparseGet d m k) ∈ m := by
  induction m with
  | nil => exact .inl rfl
  | cons p m ih =>
    rw [sparseGet_cons]
    split
    · next h => right; subst h; exact List.mem_cons_self
    · exact ih.imp id fun h => List.mem_cons_of_mem _ h

variable [DecidableEq α]

/-- A read after a write: the written value at the written index, what was there at every other. It holds of every list,
canonical or not. -/
theorem sparseGet_set (d : α) (m : List (Nat × α)) (k : Nat) (v : α) (j : Nat) :
    sparseGet d (sparseSet d m k v) j = if j = k then v else sparseGet d m j := by
  unfold sparseSet
  have hlo := sparseGet_filter d m (fun i => decide (i < k)) j
  have hhi := sparseGet_filter d m (fun i => decide (k < i)) j
  rcases lt_trichotomy j k with hj | hj | hj
  · rw [sparseGet_append_left, sparseGet_append_left, hlo, if_pos (by simpa using hj), if_neg (by omega)]
    · intro p hp; split at hp <;> simp at hp; subst hp; simp; omega
    · intro p hp; simp only [List.mem_filter, decide_eq_true_eq] at hp; omega
  · subst hj
    rw [sparseGet_append_left, sparseGet_append_right, if_pos rfl]
    · split
      · simp [*]
      · simp [sparseGet_cons]
    · intro p hp; simp only [List.mem_filter, decide_eq_true_eq] at hp; omega
    · intro p hp; simp only [List.mem_filter, decide_eq_true_eq] at hp; omega
  · rw [sparseGet_append_right, hhi, if_pos (by simpa using hj), if_neg (by omega)]
    intro p hp
    rw [List.mem_append] at hp
    rcases hp with hp | hp
    · simp only [List.mem_filter, decide_eq_true_eq] at hp; omega
    · split at hp <;> simp at hp; subst hp; simp; omega

/-! ### The canonical form -/

/-- The canonical form as a proposition. -/
theorem sparseWf_iff (d : α) (m : List (Nat × α)) :
    sparseWf d m = true ↔ m.Pairwise (fun p q => p.1 < q.1) ∧ ∀ p ∈ m, p.2 ≠ d := by
  simp [sparseWf]

theorem sparseWf_filter (d : α) (m : List (Nat × α)) (P : Nat × α → Bool) (h : sparseWf d m = true) :
    sparseWf d (m.filter P) = true := by
  rw [sparseWf_iff] at h ⊢
  exact ⟨h.1.filter _, fun p hp => h.2 p (List.mem_filter.1 hp).1⟩

theorem sparseWf_append (d : α) (m n : List (Nat × α)) (hm : sparseWf d m = true) (hn : sparseWf d n = true)
    (h : ∀ p ∈ m, ∀ q ∈ n, p.1 < q.1) : sparseWf d (m ++ n) = true := by
  rw [sparseWf_iff] at *
  refine ⟨List.pairwise_append.2 ⟨hm.1, hn.1, h⟩, fun p hp => ?_⟩
  rcases List.mem_append.1 hp with hp | hp
  · exact hm.2 p hp
  · exact hn.2 p hp

theorem sparseWf_from (d : α) (m : List (Nat × α)) (n : Nat) (h : sparseWf d m = true) :
    sparseWf d (sparseFrom n m) = true := sparseWf_filter d m _ h

theorem sparseWf_below_append_from (d : α) (m m' : List (Nat × α)) (n : Nat) (h : sparseWf d m = true)
    (h' : sparseWf d m' = true) : sparseWf d (sparseBelow n m ++ sparseFrom n m') = true := by
  refine sparseWf_append d _ _ (sparseWf_filter d m _ h) (sparseWf_filter d m' _ h') fun p hp q hq => ?_
  simp only [sparseBelow, sparseFrom, List.mem_filter, decide_eq_true_eq] at hp hq
  omega

/-- A write keeps the canonical form. -/
theorem sparseWf_set (d : α) (m : List (Nat × α)) (k : Nat) (v : α) (h : sparseWf d m = true) :
    sparseWf d (sparseSet d m k v) = true := by
  have hmid : sparseWf d (if v = d then [] else [(k, v)]) = true := by
    rw [sparseWf_iff]; split <;> simp_all
  refine sparseWf_append d _ _ (sparseWf_append d _ _ (sparseWf_filter d m _ h) hmid ?_) (sparseWf_filter d m _ h) ?_
  · intro p hp q hq
    simp only [List.mem_filter, decide_eq_true_eq] at hp
    split at hq <;> simp at hq
    subst hq; exact hp.2
  · intro p hp q hq
    simp only [List.mem_append, List.mem_filter, decide_eq_true_eq] at hp hq
    rcases hp with hp | hp
    · omega
    · split at hp <;> simp at hp
      subst hp; exact hq.2

/-- Every entry of a list after a write is the one written or one that was there. -/
theorem mem_sparseSet (d : α) (m : List (Nat × α)) (k : Nat) (v : α) (p : Nat × α) (hp : p ∈ sparseSet d m k v) :
    p = (k, v) ∨ p ∈ m := by
  unfold sparseSet at hp
  simp only [List.mem_append, List.mem_filter] at hp
  rcases hp with (hp | hp) | hp
  · exact .inr hp.1
  · split at hp <;> simp at hp; exact .inl hp
  · exact .inr hp.1

end

end Sys2Proof.Machine
end

