-- ==== Sys2Proof/Laws/Memory.lean ====
section
/-! SUPPORT. The laws of registers and slots: a read after a write, and that every memory operation keeps the canonical
form. -/

namespace Sys2Proof.Machine

/-! ### Registers -/

/-- A register read after a register write. -/
theorem RegFile.get_set (f : RegFile) (r q : Reg) (v : Word) : (f.set r v).get q = if q = r then v else f.get q := by
  cases r <;> cases q <;> rfl

/-- A register read after a register write, in a state. -/
theorem reg_setReg (s : State) (r q : Reg) (v : Word) : (s.setReg r v).reg q = if q = r then v else s.reg q :=
  RegFile.get_set s.regs r q v

/-! ### Slots and words -/

/-- A slot read after a slot write. -/
theorem slot_setSlot (s : State) (k j : Nat) (x : Slot) : (s.setSlot k x).slot j = if j = k then x else s.slot j :=
  sparseGet_set _ _ _ _ _

theorem live_setSlot (s : State) (k j : Nat) (x : Slot) :
    (s.setSlot k x).live j = if j = k then x.live else s.live j := by
  unfold State.live; rw [slot_setSlot]; split <;> rfl

theorem len_setSlot (s : State) (k j : Nat) (x : Slot) :
    (s.setSlot k x).len j = if j = k then x.len else s.len j := by
  unfold State.len; rw [slot_setSlot]; split <;> rfl

theorem word_setSlot (s : State) (k j i : Nat) (x : Slot) :
    (s.setSlot k x).word j i = if j = k then x.word i else s.word j i := by
  unfold State.word; rw [slot_setSlot]; split <;> rfl

/-- A word read after a word write in the same slot. -/
theorem Slot.word_setWord (x : Slot) (i j : Nat) (v : Word) : (x.setWord i v).word j = if j = i then v else x.word j :=
  sparseGet_set _ _ _ _ _

/-- A word read after a word write: the written word at the written address, what was there everywhere else. -/
theorem word_setWord (s : State) (k i j n : Nat) (v : Word) :
    (s.setWord k i v).word j n = if j = k ∧ n = i then v else s.word j n := by
  unfold State.setWord
  rw [word_setSlot]
  by_cases hj : j = k
  · subst hj; rw [if_pos rfl, Slot.word_setWord]
    by_cases hn : n = i <;> simp [hn, State.word]
  · simp [hj]

theorem live_setWord (s : State) (k i j : Nat) (v : Word) : (s.setWord k i v).live j = s.live j := by
  unfold State.setWord; rw [live_setSlot]; split
  · next h => subst h; rfl
  · rfl

theorem len_setWord (s : State) (k i j : Nat) (v : Word) : (s.setWord k i v).len j = s.len j := by
  unfold State.setWord; rw [len_setSlot]; split
  · next h => subst h; rfl
  · rfl

/-- The words of a slot made live with `n` words (R56). -/
theorem Slot.word_mapped (x : Slot) (n i : Nat) : (x.mapped n).word i = if n ≤ i then x.word i else 0 :=
  sparseGet_from _ _ _ _

/-- The words of slot 0 after a copy into it (R58). -/
theorem Slot.word_installed (dst src : Slot) (i : Nat) :
    (dst.installed src).word i = if i < src.len then src.word i else dst.word i :=
  sparseGet_below_append_from _ _ _ _ _

/-! ### The canonical form -/

/-- The words of a slot are in canonical form. -/
abbrev Slot.wf (x : Slot) : Prop := sparseWf (0 : Word) x.words = true

theorem memory_wf_iff (m : Memory) : Memory.wf m = true ↔ sparseWf Slot.empty m = true ∧ ∀ p ∈ m, p.2.wf := by
  simp [Memory.wf, Slot.wf]

/-- The slot of every identifier is canonical in a canonical memory. -/
theorem slot_wf (s : State) (id : Nat) (h : Memory.wf s.mem = true) : (s.slot id).wf := by
  rcases sparseGet_mem Slot.empty s.mem id with e | e
  · unfold State.slot; rw [e]; decide
  · exact ((memory_wf_iff _).1 h).2 _ e

/-- Replacing a slot by a canonical one keeps memory canonical. -/
theorem setSlot_wf (s : State) (id : Nat) (x : Slot) (h : Memory.wf s.mem = true) (hx : x.wf) :
    Memory.wf (s.setSlot id x).mem = true := by
  rw [memory_wf_iff] at h ⊢
  refine ⟨sparseWf_set _ _ _ _ h.1, fun p hp => ?_⟩
  rcases mem_sparseSet _ _ _ _ _ hp with rfl | hp
  · exact hx
  · exact h.2 p hp

theorem Slot.setWord_wf (x : Slot) (i : Nat) (v : Word) (h : x.wf) : (x.setWord i v).wf := sparseWf_set _ _ _ _ h

theorem Slot.mapped_wf (x : Slot) (n : Nat) (h : x.wf) : (x.mapped n).wf := sparseWf_from _ _ _ h

theorem Slot.installed_wf (dst src : Slot) (hd : dst.wf) (hs : src.wf) : (dst.installed src).wf :=
  sparseWf_below_append_from _ _ _ _ hs hd

theorem setWord_wf (s : State) (id i : Nat) (v : Word) (h : Memory.wf s.mem = true) :
    Memory.wf (s.setWord id i v).mem = true :=
  setSlot_wf _ _ _ h (Slot.setWord_wf _ _ _ (slot_wf _ _ h))

/-- Memory is canonical after reset. -/
theorem reset_mem_wf (cfg : Config) (inSeq : List Byte) : Memory.wf (State.resetWith cfg inSeq).mem = true := by
  show Memory.wf [(0, { live := true, len := 0, words := [] })] = true
  decide

end Sys2Proof.Machine
end

