-- ==== Sys2Proof/Laws/State.lean ====
section
/-! SUPPORT. One lemma per field of the state and per update, true by definition, so that no proof unfolds an update. The
readers of registers and memory pass through every update that does not touch what they read; Laws/Memory.lean has the
ones that do. -/

namespace Sys2Proof.Machine

section
variable (s : State)

/-! ### `setReg` -/

@[simp] theorem setReg_cfg (r : Reg) (v : Word) : (s.setReg r v).cfg = s.cfg := rfl
@[simp] theorem setReg_regs (r : Reg) (v : Word) : (s.setReg r v).regs = s.regs.set r v := rfl
@[simp] theorem setReg_pc (r : Reg) (v : Word) : (s.setReg r v).pc = s.pc := rfl
@[simp] theorem setReg_mem (r : Reg) (v : Word) : (s.setReg r v).mem = s.mem := rfl
@[simp] theorem setReg_nextFree (r : Reg) (v : Word) : (s.setReg r v).nextFree = s.nextFree := rfl
@[simp] theorem setReg_pool (r : Reg) (v : Word) : (s.setReg r v).pool = s.pool := rfl
@[simp] theorem setReg_run (r : Reg) (v : Word) : (s.setReg r v).run = s.run := rfl
@[simp] theorem setReg_inWait (r : Reg) (v : Word) : (s.setReg r v).inWait = s.inWait := rfl
@[simp] theorem setReg_lastValid (r : Reg) (v : Word) : (s.setReg r v).lastValid = s.lastValid := rfl
@[simp] theorem setReg_lastOp (r : Reg) (v : Word) : (s.setReg r v).lastOp = s.lastOp := rfl
@[simp] theorem setReg_cause (r : Reg) (v : Word) : (s.setReg r v).cause = s.cause := rfl
@[simp] theorem setReg_faultWord (r : Reg) (v : Word) : (s.setReg r v).faultWord = s.faultWord := rfl
@[simp] theorem setReg_inSeq (r : Reg) (v : Word) : (s.setReg r v).inSeq = s.inSeq := rfl
@[simp] theorem setReg_inPos (r : Reg) (v : Word) : (s.setReg r v).inPos = s.inPos := rfl
@[simp] theorem setReg_outSeq (r : Reg) (v : Word) : (s.setReg r v).outSeq = s.outSeq := rfl
@[simp] theorem setReg_slot (r : Reg) (v : Word) (j : Nat) : (s.setReg r v).slot j = s.slot j := rfl
@[simp] theorem setReg_live (r : Reg) (v : Word) (j : Nat) : (s.setReg r v).live j = s.live j := rfl
@[simp] theorem setReg_len (r : Reg) (v : Word) (j : Nat) : (s.setReg r v).len j = s.len j := rfl
@[simp] theorem setReg_word (r : Reg) (v : Word) (j n : Nat) : (s.setReg r v).word j n = s.word j n := rfl

/-! ### `setSlot` -/

@[simp] theorem setSlot_cfg (k : Nat) (x : Slot) : (s.setSlot k x).cfg = s.cfg := rfl
@[simp] theorem setSlot_regs (k : Nat) (x : Slot) : (s.setSlot k x).regs = s.regs := rfl
@[simp] theorem setSlot_pc (k : Nat) (x : Slot) : (s.setSlot k x).pc = s.pc := rfl
@[simp] theorem setSlot_mem (k : Nat) (x : Slot) : (s.setSlot k x).mem = sparseSet Slot.empty s.mem k x := rfl
@[simp] theorem setSlot_nextFree (k : Nat) (x : Slot) : (s.setSlot k x).nextFree = s.nextFree := rfl
@[simp] theorem setSlot_pool (k : Nat) (x : Slot) : (s.setSlot k x).pool = s.pool := rfl
@[simp] theorem setSlot_run (k : Nat) (x : Slot) : (s.setSlot k x).run = s.run := rfl
@[simp] theorem setSlot_inWait (k : Nat) (x : Slot) : (s.setSlot k x).inWait = s.inWait := rfl
@[simp] theorem setSlot_lastValid (k : Nat) (x : Slot) : (s.setSlot k x).lastValid = s.lastValid := rfl
@[simp] theorem setSlot_lastOp (k : Nat) (x : Slot) : (s.setSlot k x).lastOp = s.lastOp := rfl
@[simp] theorem setSlot_cause (k : Nat) (x : Slot) : (s.setSlot k x).cause = s.cause := rfl
@[simp] theorem setSlot_faultWord (k : Nat) (x : Slot) : (s.setSlot k x).faultWord = s.faultWord := rfl
@[simp] theorem setSlot_inSeq (k : Nat) (x : Slot) : (s.setSlot k x).inSeq = s.inSeq := rfl
@[simp] theorem setSlot_inPos (k : Nat) (x : Slot) : (s.setSlot k x).inPos = s.inPos := rfl
@[simp] theorem setSlot_outSeq (k : Nat) (x : Slot) : (s.setSlot k x).outSeq = s.outSeq := rfl
@[simp] theorem setSlot_reg (k : Nat) (x : Slot) (q : Reg) : (s.setSlot k x).reg q = s.reg q := rfl

/-! ### `setWord` -/

@[simp] theorem setWord_cfg (k i : Nat) (v : Word) : (s.setWord k i v).cfg = s.cfg := rfl
@[simp] theorem setWord_regs (k i : Nat) (v : Word) : (s.setWord k i v).regs = s.regs := rfl
@[simp] theorem setWord_pc (k i : Nat) (v : Word) : (s.setWord k i v).pc = s.pc := rfl
@[simp] theorem setWord_mem (k i : Nat) (v : Word) : (s.setWord k i v).mem = sparseSet Slot.empty s.mem k ((s.slot k).setWord i v) := rfl
@[simp] theorem setWord_nextFree (k i : Nat) (v : Word) : (s.setWord k i v).nextFree = s.nextFree := rfl
@[simp] theorem setWord_pool (k i : Nat) (v : Word) : (s.setWord k i v).pool = s.pool := rfl
@[simp] theorem setWord_run (k i : Nat) (v : Word) : (s.setWord k i v).run = s.run := rfl
@[simp] theorem setWord_inWait (k i : Nat) (v : Word) : (s.setWord k i v).inWait = s.inWait := rfl
@[simp] theorem setWord_lastValid (k i : Nat) (v : Word) : (s.setWord k i v).lastValid = s.lastValid := rfl
@[simp] theorem setWord_lastOp (k i : Nat) (v : Word) : (s.setWord k i v).lastOp = s.lastOp := rfl
@[simp] theorem setWord_cause (k i : Nat) (v : Word) : (s.setWord k i v).cause = s.cause := rfl
@[simp] theorem setWord_faultWord (k i : Nat) (v : Word) : (s.setWord k i v).faultWord = s.faultWord := rfl
@[simp] theorem setWord_inSeq (k i : Nat) (v : Word) : (s.setWord k i v).inSeq = s.inSeq := rfl
@[simp] theorem setWord_inPos (k i : Nat) (v : Word) : (s.setWord k i v).inPos = s.inPos := rfl
@[simp] theorem setWord_outSeq (k i : Nat) (v : Word) : (s.setWord k i v).outSeq = s.outSeq := rfl
@[simp] theorem setWord_reg (k i : Nat) (v : Word) (q : Reg) : (s.setWord k i v).reg q = s.reg q := rfl

/-! ### `complete` -/

@[simp] theorem complete_cfg (op : BitVec 4) (p : Word) : (s.complete op p).cfg = s.cfg := rfl
@[simp] theorem complete_regs (op : BitVec 4) (p : Word) : (s.complete op p).regs = s.regs := rfl
@[simp] theorem complete_pc (op : BitVec 4) (p : Word) : (s.complete op p).pc = p := rfl
@[simp] theorem complete_mem (op : BitVec 4) (p : Word) : (s.complete op p).mem = s.mem := rfl
@[simp] theorem complete_nextFree (op : BitVec 4) (p : Word) : (s.complete op p).nextFree = s.nextFree := rfl
@[simp] theorem complete_pool (op : BitVec 4) (p : Word) : (s.complete op p).pool = s.pool := rfl
@[simp] theorem complete_run (op : BitVec 4) (p : Word) : (s.complete op p).run = s.run := rfl
@[simp] theorem complete_inWait (op : BitVec 4) (p : Word) : (s.complete op p).inWait = s.inWait := rfl
@[simp] theorem complete_lastValid (op : BitVec 4) (p : Word) : (s.complete op p).lastValid = true := rfl
@[simp] theorem complete_lastOp (op : BitVec 4) (p : Word) : (s.complete op p).lastOp = op := rfl
@[simp] theorem complete_cause (op : BitVec 4) (p : Word) : (s.complete op p).cause = s.cause := rfl
@[simp] theorem complete_faultWord (op : BitVec 4) (p : Word) : (s.complete op p).faultWord = s.faultWord := rfl
@[simp] theorem complete_inSeq (op : BitVec 4) (p : Word) : (s.complete op p).inSeq = s.inSeq := rfl
@[simp] theorem complete_inPos (op : BitVec 4) (p : Word) : (s.complete op p).inPos = s.inPos := rfl
@[simp] theorem complete_outSeq (op : BitVec 4) (p : Word) : (s.complete op p).outSeq = s.outSeq := rfl
@[simp] theorem complete_reg (op : BitVec 4) (p : Word) (q : Reg) : (s.complete op p).reg q = s.reg q := rfl
@[simp] theorem complete_slot (op : BitVec 4) (p : Word) (j : Nat) : (s.complete op p).slot j = s.slot j := rfl
@[simp] theorem complete_live (op : BitVec 4) (p : Word) (j : Nat) : (s.complete op p).live j = s.live j := rfl
@[simp] theorem complete_len (op : BitVec 4) (p : Word) (j : Nat) : (s.complete op p).len j = s.len j := rfl
@[simp] theorem complete_word (op : BitVec 4) (p : Word) (j n : Nat) : (s.complete op p).word j n = s.word j n := rfl

/-! ### `advance` -/

@[simp] theorem advance_cfg (op : BitVec 4) : (s.advance op).cfg = s.cfg := rfl
@[simp] theorem advance_regs (op : BitVec 4) : (s.advance op).regs = s.regs := rfl
@[simp] theorem advance_pc (op : BitVec 4) : (s.advance op).pc = s.pc + 1 := rfl
@[simp] theorem advance_mem (op : BitVec 4) : (s.advance op).mem = s.mem := rfl
@[simp] theorem advance_nextFree (op : BitVec 4) : (s.advance op).nextFree = s.nextFree := rfl
@[simp] theorem advance_pool (op : BitVec 4) : (s.advance op).pool = s.pool := rfl
@[simp] theorem advance_run (op : BitVec 4) : (s.advance op).run = s.run := rfl
@[simp] theorem advance_inWait (op : BitVec 4) : (s.advance op).inWait = s.inWait := rfl
@[simp] theorem advance_lastValid (op : BitVec 4) : (s.advance op).lastValid = true := rfl
@[simp] theorem advance_lastOp (op : BitVec 4) : (s.advance op).lastOp = op := rfl
@[simp] theorem advance_cause (op : BitVec 4) : (s.advance op).cause = s.cause := rfl
@[simp] theorem advance_faultWord (op : BitVec 4) : (s.advance op).faultWord = s.faultWord := rfl
@[simp] theorem advance_inSeq (op : BitVec 4) : (s.advance op).inSeq = s.inSeq := rfl
@[simp] theorem advance_inPos (op : BitVec 4) : (s.advance op).inPos = s.inPos := rfl
@[simp] theorem advance_outSeq (op : BitVec 4) : (s.advance op).outSeq = s.outSeq := rfl
@[simp] theorem advance_reg (op : BitVec 4) (q : Reg) : (s.advance op).reg q = s.reg q := rfl
@[simp] theorem advance_slot (op : BitVec 4) (j : Nat) : (s.advance op).slot j = s.slot j := rfl
@[simp] theorem advance_live (op : BitVec 4) (j : Nat) : (s.advance op).live j = s.live j := rfl
@[simp] theorem advance_len (op : BitVec 4) (j : Nat) : (s.advance op).len j = s.len j := rfl
@[simp] theorem advance_word (op : BitVec 4) (j n : Nat) : (s.advance op).word j n = s.word j n := rfl

/-! ### `trapEntry` -/

@[simp] theorem trapEntry_cfg (c : Cause) (w : Word) : (trapEntry c w s).cfg = s.cfg := rfl
@[simp] theorem trapEntry_regs (c : Cause) (w : Word) : (trapEntry c w s).regs = s.regs := rfl
@[simp] theorem trapEntry_pc (c : Cause) (w : Word) : (trapEntry c w s).pc = s.pc := rfl
@[simp] theorem trapEntry_mem (c : Cause) (w : Word) : (trapEntry c w s).mem = s.mem := rfl
@[simp] theorem trapEntry_nextFree (c : Cause) (w : Word) : (trapEntry c w s).nextFree = s.nextFree := rfl
@[simp] theorem trapEntry_pool (c : Cause) (w : Word) : (trapEntry c w s).pool = s.pool := rfl
@[simp] theorem trapEntry_run (c : Cause) (w : Word) : (trapEntry c w s).run = .faulted := rfl
@[simp] theorem trapEntry_inWait (c : Cause) (w : Word) : (trapEntry c w s).inWait = false := rfl
@[simp] theorem trapEntry_lastValid (c : Cause) (w : Word) : (trapEntry c w s).lastValid = s.lastValid := rfl
@[simp] theorem trapEntry_lastOp (c : Cause) (w : Word) : (trapEntry c w s).lastOp = s.lastOp := rfl
@[simp] theorem trapEntry_cause (c : Cause) (w : Word) : (trapEntry c w s).cause = c := rfl
@[simp] theorem trapEntry_faultWord (c : Cause) (w : Word) : (trapEntry c w s).faultWord = w := rfl
@[simp] theorem trapEntry_inSeq (c : Cause) (w : Word) : (trapEntry c w s).inSeq = s.inSeq := rfl
@[simp] theorem trapEntry_inPos (c : Cause) (w : Word) : (trapEntry c w s).inPos = s.inPos := rfl
@[simp] theorem trapEntry_outSeq (c : Cause) (w : Word) : (trapEntry c w s).outSeq = s.outSeq := rfl
@[simp] theorem trapEntry_reg (c : Cause) (w : Word) (q : Reg) : (trapEntry c w s).reg q = s.reg q := rfl
@[simp] theorem trapEntry_slot (c : Cause) (w : Word) (j : Nat) : (trapEntry c w s).slot j = s.slot j := rfl
@[simp] theorem trapEntry_live (c : Cause) (w : Word) (j : Nat) : (trapEntry c w s).live j = s.live j := rfl
@[simp] theorem trapEntry_len (c : Cause) (w : Word) (j : Nat) : (trapEntry c w s).len j = s.len j := rfl
@[simp] theorem trapEntry_word (c : Cause) (w : Word) (j n : Nat) : (trapEntry c w s).word j n = s.word j n := rfl

/-! ### `raiseFault` -/

@[simp] theorem raiseFault_cfg (c : Cause) : (raiseFault c s).cfg = s.cfg := rfl
@[simp] theorem raiseFault_regs (c : Cause) : (raiseFault c s).regs = s.regs := rfl
@[simp] theorem raiseFault_pc (c : Cause) : (raiseFault c s).pc = s.pc := rfl
@[simp] theorem raiseFault_mem (c : Cause) : (raiseFault c s).mem = s.mem := rfl
@[simp] theorem raiseFault_nextFree (c : Cause) : (raiseFault c s).nextFree = s.nextFree := rfl
@[simp] theorem raiseFault_pool (c : Cause) : (raiseFault c s).pool = s.pool := rfl
@[simp] theorem raiseFault_run (c : Cause) : (raiseFault c s).run = .faulted := rfl
@[simp] theorem raiseFault_inWait (c : Cause) : (raiseFault c s).inWait = false := rfl
@[simp] theorem raiseFault_lastValid (c : Cause) : (raiseFault c s).lastValid = s.lastValid := rfl
@[simp] theorem raiseFault_lastOp (c : Cause) : (raiseFault c s).lastOp = s.lastOp := rfl
@[simp] theorem raiseFault_cause (c : Cause) : (raiseFault c s).cause = c := rfl
@[simp] theorem raiseFault_faultWord (c : Cause) : (raiseFault c s).faultWord = s.fetchedWord := rfl
@[simp] theorem raiseFault_inSeq (c : Cause) : (raiseFault c s).inSeq = s.inSeq := rfl
@[simp] theorem raiseFault_inPos (c : Cause) : (raiseFault c s).inPos = s.inPos := rfl
@[simp] theorem raiseFault_outSeq (c : Cause) : (raiseFault c s).outSeq = s.outSeq := rfl
@[simp] theorem raiseFault_reg (c : Cause) (q : Reg) : (raiseFault c s).reg q = s.reg q := rfl
@[simp] theorem raiseFault_slot (c : Cause) (j : Nat) : (raiseFault c s).slot j = s.slot j := rfl
@[simp] theorem raiseFault_live (c : Cause) (j : Nat) : (raiseFault c s).live j = s.live j := rfl
@[simp] theorem raiseFault_len (c : Cause) (j : Nat) : (raiseFault c s).len j = s.len j := rfl
@[simp] theorem raiseFault_word (c : Cause) (j n : Nat) : (raiseFault c s).word j n = s.word j n := rfl

/-! ### `beginWait` -/

@[simp] theorem beginWait_cfg : (s.beginWait).cfg = s.cfg := rfl
@[simp] theorem beginWait_regs : (s.beginWait).regs = s.regs := rfl
@[simp] theorem beginWait_pc : (s.beginWait).pc = s.pc := rfl
@[simp] theorem beginWait_mem : (s.beginWait).mem = s.mem := rfl
@[simp] theorem beginWait_nextFree : (s.beginWait).nextFree = s.nextFree := rfl
@[simp] theorem beginWait_pool : (s.beginWait).pool = s.pool := rfl
@[simp] theorem beginWait_run : (s.beginWait).run = s.run := rfl
@[simp] theorem beginWait_inWait : (s.beginWait).inWait = true := rfl
@[simp] theorem beginWait_lastValid : (s.beginWait).lastValid = s.lastValid := rfl
@[simp] theorem beginWait_lastOp : (s.beginWait).lastOp = s.lastOp := rfl
@[simp] theorem beginWait_cause : (s.beginWait).cause = s.cause := rfl
@[simp] theorem beginWait_faultWord : (s.beginWait).faultWord = s.faultWord := rfl
@[simp] theorem beginWait_inSeq : (s.beginWait).inSeq = s.inSeq := rfl
@[simp] theorem beginWait_inPos : (s.beginWait).inPos = s.inPos := rfl
@[simp] theorem beginWait_outSeq : (s.beginWait).outSeq = s.outSeq := rfl
@[simp] theorem beginWait_reg (q : Reg) : (s.beginWait).reg q = s.reg q := rfl
@[simp] theorem beginWait_slot (j : Nat) : (s.beginWait).slot j = s.slot j := rfl
@[simp] theorem beginWait_live (j : Nat) : (s.beginWait).live j = s.live j := rfl
@[simp] theorem beginWait_len (j : Nat) : (s.beginWait).len j = s.len j := rfl
@[simp] theorem beginWait_word (j n : Nat) : (s.beginWait).word j n = s.word j n := rfl

/-! ### `answerInput` -/

@[simp] theorem answerInput_cfg (c : Reg) (v : InputItem) : (s.answerInput c v).cfg = s.cfg := rfl
@[simp] theorem answerInput_regs (c : Reg) (v : InputItem) : (s.answerInput c v).regs = s.regs.set c v.value := rfl
@[simp] theorem answerInput_pc (c : Reg) (v : InputItem) : (s.answerInput c v).pc = s.pc + 1 := rfl
@[simp] theorem answerInput_mem (c : Reg) (v : InputItem) : (s.answerInput c v).mem = s.mem := rfl
@[simp] theorem answerInput_nextFree (c : Reg) (v : InputItem) : (s.answerInput c v).nextFree = s.nextFree := rfl
@[simp] theorem answerInput_pool (c : Reg) (v : InputItem) : (s.answerInput c v).pool = s.pool := rfl
@[simp] theorem answerInput_run (c : Reg) (v : InputItem) : (s.answerInput c v).run = s.run := rfl
@[simp] theorem answerInput_inWait (c : Reg) (v : InputItem) : (s.answerInput c v).inWait = false := rfl
@[simp] theorem answerInput_lastValid (c : Reg) (v : InputItem) : (s.answerInput c v).lastValid = true := rfl
@[simp] theorem answerInput_lastOp (c : Reg) (v : InputItem) : (s.answerInput c v).lastOp = 11 := rfl
@[simp] theorem answerInput_cause (c : Reg) (v : InputItem) : (s.answerInput c v).cause = s.cause := rfl
@[simp] theorem answerInput_faultWord (c : Reg) (v : InputItem) : (s.answerInput c v).faultWord = s.faultWord := rfl
@[simp] theorem answerInput_inSeq (c : Reg) (v : InputItem) : (s.answerInput c v).inSeq = s.inSeq := rfl
@[simp] theorem answerInput_inPos (c : Reg) (v : InputItem) : (s.answerInput c v).inPos = s.inPos + 1 := rfl
@[simp] theorem answerInput_outSeq (c : Reg) (v : InputItem) : (s.answerInput c v).outSeq = s.outSeq := rfl
@[simp] theorem answerInput_slot (c : Reg) (v : InputItem) (j : Nat) : (s.answerInput c v).slot j = s.slot j := rfl
@[simp] theorem answerInput_live (c : Reg) (v : InputItem) (j : Nat) : (s.answerInput c v).live j = s.live j := rfl
@[simp] theorem answerInput_len (c : Reg) (v : InputItem) (j : Nat) : (s.answerInput c v).len j = s.len j := rfl
@[simp] theorem answerInput_word (c : Reg) (v : InputItem) (j n : Nat) : (s.answerInput c v).word j n = s.word j n := rfl

end

end Sys2Proof.Machine
end

