-- ==== Sys2Proof/Laws/Ops.lean ====
section
/-! SUPPORT. One lemma for each shared operation, saying everything it can answer. A proof cites it and does not unfold
the operation. -/

namespace Sys2Proof.Machine

/-! ### Memory access -/

/-- When an access is valid (R52). -/
theorem validAccess_iff (s : State) (id idx : Word) :
    s.validAccess id idx = true ↔ id.toNat < s.cfg.nseg ∧ s.live id.toNat = true ∧ idx.toNat < s.len id.toNat := by
  simp [State.validAccess, and_assoc]

/-- A read answers the word of a valid access and the fault of any other (R53). -/
theorem memRead_cases (s : State) (id idx : Word) :
    (s.validAccess id idx = true ∧ memRead s id idx = .ok (s.word id.toNat idx.toNat)) ∨
      (s.validAccess id idx = false ∧ memRead s id idx = .error .dataAddress) := by
  unfold memRead; cases s.validAccess id idx <;> simp

/-- A write answers the state with the word replaced, or the fault (R54). -/
theorem memWrite_cases (s : State) (id idx v : Word) :
    (s.validAccess id idx = true ∧ memWrite s id idx v = .ok (s.setWord id.toNat idx.toNat v)) ∨
      (s.validAccess id idx = false ∧ memWrite s id idx v = .error .dataAddress) := by
  unfold memWrite; cases s.validAccess id idx <;> simp

/-- A fetch answers the word at the pc in segment 0, or the fault (R55). -/
theorem fetch_cases (s : State) :
    (s.pc.toNat < s.len 0 ∧ fetch s = .ok (s.word 0 s.pc.toNat)) ∨
      (s.len 0 ≤ s.pc.toNat ∧ fetch s = .error .fetchAddress) := by
  unfold fetch; split
  · exact .inl ⟨‹_›, rfl⟩
  · exact .inr ⟨by omega, rfl⟩

/-- The word an instruction was fetched as. -/
theorem fetchedWord_of_fetch {s : State} {w : Word} (h : fetch s = .ok w) : s.fetchedWord = w := by
  unfold State.fetchedWord; rw [h]

/-! ### The segment controller -/

/-- The state after `Map` has bound `id` to `n` zero words (R56). -/
def State.afterMap (s : State) (id n : Nat) : State :=
  { s.setSlot id ((s.slot id).mapped n) with
    nextFree := if s.pool.isEmpty then s.nextFree + 1 else s.nextFree, pool := s.pool.tail }

@[simp] theorem afterMap_cfg (s : State) (id n : Nat) : (s.afterMap id n).cfg = s.cfg := rfl
@[simp] theorem afterMap_regs (s : State) (id n : Nat) : (s.afterMap id n).regs = s.regs := rfl
@[simp] theorem afterMap_pc (s : State) (id n : Nat) : (s.afterMap id n).pc = s.pc := rfl
@[simp] theorem afterMap_run (s : State) (id n : Nat) : (s.afterMap id n).run = s.run := rfl
@[simp] theorem afterMap_inWait (s : State) (id n : Nat) : (s.afterMap id n).inWait = s.inWait := rfl
@[simp] theorem afterMap_lastValid (s : State) (id n : Nat) : (s.afterMap id n).lastValid = s.lastValid := rfl
@[simp] theorem afterMap_lastOp (s : State) (id n : Nat) : (s.afterMap id n).lastOp = s.lastOp := rfl
@[simp] theorem afterMap_cause (s : State) (id n : Nat) : (s.afterMap id n).cause = s.cause := rfl
@[simp] theorem afterMap_faultWord (s : State) (id n : Nat) : (s.afterMap id n).faultWord = s.faultWord := rfl
@[simp] theorem afterMap_inSeq (s : State) (id n : Nat) : (s.afterMap id n).inSeq = s.inSeq := rfl
@[simp] theorem afterMap_inPos (s : State) (id n : Nat) : (s.afterMap id n).inPos = s.inPos := rfl
@[simp] theorem afterMap_outSeq (s : State) (id n : Nat) : (s.afterMap id n).outSeq = s.outSeq := rfl

/-- The slots after `Map`. -/
theorem slot_afterMap (s : State) (id n j : Nat) :
    (s.afterMap id n).slot j = if j = id then (s.slot id).mapped n else s.slot j := slot_setSlot s id j _

/-- `Map` binds the identifier its choice gives, or faults (R56). -/
theorem mapSegment_cases (s : State) (n : Nat) :
    (∃ id, s.mapTarget = some id ∧ n ≤ capacity s.cfg id ∧ mapSegment s n = .ok (id, s.afterMap id n)) ∨
      ((∀ id, s.mapTarget = some id → capacity s.cfg id < n) ∧ mapSegment s n = .error .allocation) := by
  unfold mapSegment
  cases h : s.mapTarget with
  | none => exact .inr ⟨by simp, rfl⟩
  | some id =>
    by_cases hn : capacity s.cfg id < n
    · exact .inr ⟨by simpa using hn, by simp [hn]⟩
    · exact .inl ⟨id, rfl, by omega, by simp [hn, State.afterMap]⟩

/-- Where the identifier `Map` binds comes from (R56). -/
theorem mapTarget_eq_some (s : State) (id : Nat) :
    s.mapTarget = some id ↔
      (∃ rest, s.pool = id :: rest) ∨ (s.pool = [] ∧ s.nextFree < s.cfg.nseg ∧ id = s.nextFree) := by
  unfold State.mapTarget
  cases h : s.pool with
  | nil => simp [eq_comm]
  | cons a l => simp

/-- The state after `Unmap` has retired `id` (R57). -/
def State.afterUnmap (s : State) (id : Nat) : State :=
  { s.setSlot id { s.slot id with live := false } with pool := id :: s.pool }

@[simp] theorem afterUnmap_cfg (s : State) (id : Nat) : (s.afterUnmap id).cfg = s.cfg := rfl
@[simp] theorem afterUnmap_regs (s : State) (id : Nat) : (s.afterUnmap id).regs = s.regs := rfl
@[simp] theorem afterUnmap_pc (s : State) (id : Nat) : (s.afterUnmap id).pc = s.pc := rfl
@[simp] theorem afterUnmap_run (s : State) (id : Nat) : (s.afterUnmap id).run = s.run := rfl
@[simp] theorem afterUnmap_inWait (s : State) (id : Nat) : (s.afterUnmap id).inWait = s.inWait := rfl
@[simp] theorem afterUnmap_lastValid (s : State) (id : Nat) : (s.afterUnmap id).lastValid = s.lastValid := rfl
@[simp] theorem afterUnmap_lastOp (s : State) (id : Nat) : (s.afterUnmap id).lastOp = s.lastOp := rfl
@[simp] theorem afterUnmap_cause (s : State) (id : Nat) : (s.afterUnmap id).cause = s.cause := rfl
@[simp] theorem afterUnmap_faultWord (s : State) (id : Nat) : (s.afterUnmap id).faultWord = s.faultWord := rfl
@[simp] theorem afterUnmap_inSeq (s : State) (id : Nat) : (s.afterUnmap id).inSeq = s.inSeq := rfl
@[simp] theorem afterUnmap_inPos (s : State) (id : Nat) : (s.afterUnmap id).inPos = s.inPos := rfl
@[simp] theorem afterUnmap_outSeq (s : State) (id : Nat) : (s.afterUnmap id).outSeq = s.outSeq := rfl
@[simp] theorem afterUnmap_nextFree (s : State) (id : Nat) : (s.afterUnmap id).nextFree = s.nextFree := rfl
@[simp] theorem afterUnmap_pool (s : State) (id : Nat) : (s.afterUnmap id).pool = id :: s.pool := rfl

/-- The slots after `Unmap`. -/
theorem slot_afterUnmap (s : State) (id j : Nat) :
    (s.afterUnmap id).slot j = if j = id then { s.slot id with live := false } else s.slot j := slot_setSlot s id j _

/-- `Unmap` retires an issued, live identifier other than 0, or raises one of three faults (R57). -/
theorem unmapSegment_cases (s : State) (id : Nat) :
    (id < s.nextFree ∧ id ≠ 0 ∧ s.live id = true ∧ unmapSegment s id = .ok (s.afterUnmap id)) ∨
      (s.nextFree ≤ id ∧ unmapSegment s id = .error .unmapOutOfRange) ∨
      (id < s.nextFree ∧ id = 0 ∧ unmapSegment s id = .error .unmapZero) ∨
      (id < s.nextFree ∧ id ≠ 0 ∧ s.live id = false ∧ unmapSegment s id = .error .unmapNotLive) := by
  unfold unmapSegment
  by_cases h1 : s.nextFree ≤ id
  · simp [h1]
  · by_cases h2 : id = 0
    · subst h2; simp [h1]; omega
    · cases h3 : s.live id <;> simp [h1, h2, State.afterUnmap] <;> omega

/-- `Install` copies a live segment into slot 0, does nothing for identifier 0, or faults (R58). -/
theorem installSegment_cases (s : State) (id : Nat) :
    (id = 0 ∧ installSegment s id = .ok s) ∨
      (id ≠ 0 ∧ id < s.cfg.nseg ∧ s.live id = true ∧
        installSegment s id = .ok (s.setSlot 0 ((s.slot 0).installed (s.slot id)))) ∨
      (id ≠ 0 ∧ (s.cfg.nseg ≤ id ∨ s.live id = false) ∧ installSegment s id = .error .programSource) := by
  unfold installSegment
  by_cases h0 : id = 0
  · simp [h0]
  · by_cases h1 : s.cfg.nseg ≤ id ∨ s.live id = false
    · simp [h0, h1]
    · have h2 := h1
      push Not at h2
      simp [h0, h2.1, h2.2]

/-! ### Every operation keeps memory canonical -/

theorem memWrite_wf {s s' : State} {id idx v : Word} (h : Memory.wf s.mem = true) (e : memWrite s id idx v = .ok s') :
    Memory.wf s'.mem = true := by
  rcases memWrite_cases s id idx v with ⟨-, e'⟩ | ⟨-, e'⟩ <;> rw [e'] at e <;> cases e
  exact setWord_wf _ _ _ _ h

theorem afterMap_wf (s : State) (id n : Nat) (h : Memory.wf s.mem = true) : Memory.wf (s.afterMap id n).mem = true :=
  setSlot_wf _ _ _ h (Slot.mapped_wf _ _ (slot_wf _ _ h))

theorem mapSegment_wf {s s' : State} {n id : Nat} (h : Memory.wf s.mem = true) (e : mapSegment s n = .ok (id, s')) :
    Memory.wf s'.mem = true := by
  rcases mapSegment_cases s n with ⟨_, -, -, e'⟩ | ⟨-, e'⟩ <;> rw [e'] at e <;> cases e
  exact afterMap_wf _ _ _ h

theorem afterUnmap_wf (s : State) (id : Nat) (h : Memory.wf s.mem = true) : Memory.wf (s.afterUnmap id).mem = true :=
  setSlot_wf s id _ h (slot_wf s id h)

theorem unmapSegment_wf {s s' : State} {id : Nat} (h : Memory.wf s.mem = true) (e : unmapSegment s id = .ok s') :
    Memory.wf s'.mem = true := by
  rcases unmapSegment_cases s id with ⟨-, -, -, e'⟩ | ⟨-, e'⟩ | ⟨-, -, e'⟩ | ⟨-, -, -, e'⟩ <;> rw [e'] at e <;> cases e
  exact afterUnmap_wf _ _ h

theorem installSegment_wf {s s' : State} {id : Nat} (h : Memory.wf s.mem = true) (e : installSegment s id = .ok s') :
    Memory.wf s'.mem = true := by
  rcases installSegment_cases s id with ⟨-, e'⟩ | ⟨-, -, -, e'⟩ | ⟨-, -, e'⟩ <;> rw [e'] at e <;> cases e
  · exact h
  · exact setSlot_wf _ _ _ h (Slot.installed_wf _ _ (slot_wf _ _ h) (slot_wf _ _ h))

theorem placeAtPc_wf (s : State) (w : Word) (h : Memory.wf s.mem = true) : Memory.wf (s.placeAtPc w).mem = true :=
  setSlot_wf s 0 _ h (Slot.setWord_wf _ _ _ (slot_wf s 0 h))

/-! ### Arithmetic -/

theorem sumWord_eq (x y : Word) : sumWord x y = x + y := by
  apply BitVec.eq_of_toNat_eq; simp [sumWord]

theorem productWord_eq (x y : Word) : productWord x y = x * y := by
  apply BitVec.eq_of_toNat_eq; simp [productWord]

/-- A division answers the quotient, or the fault of a zero divisor (R96). -/
theorem quotientWord_cases (x y : Word) :
    (y ≠ 0 ∧ quotientWord x y = .ok (BitVec.ofNat 32 (x.toNat / y.toNat))) ∨
      (y = 0 ∧ quotientWord x y = .error .divideByZero) := by
  unfold quotientWord
  by_cases h : y = 0
  · subst h; exact .inr ⟨rfl, by simp⟩
  · have h0 : y.toNat ≠ 0 := fun e => h (BitVec.eq_of_toNat_eq (by simpa using e))
    exact .inl ⟨h, by rw [if_neg h0]⟩

theorem nandWord_eq (x y : Word) : nandWord x y = ~~~(x &&& y) := by
  apply BitVec.eq_of_toNat_eq
  have h : x.toNat &&& y.toNat < 2 ^ 32 := lt_of_le_of_lt Nat.and_le_left x.isLt
  simp only [nandWord, BitVec.toNat_ofNat, BitVec.toNat_not, BitVec.toNat_and]
  omega

end Sys2Proof.Machine
end

