-- ==== Sys2Proof/Laws/Meanings.lean ====
section
/-! SUPPORT. For each instruction whose meaning has more than one outcome, the outcomes and when each is taken. -/

namespace Sys2Proof.Machine

/-- `sload` reads the addressed word or takes DATA_ADDRESS. -/
theorem exec_sload_cases (a b c : Reg) (s : State) :
    (s.validAccess (s.reg b) (s.reg c) = true ∧
        exec (.sload a b c) s = .next ((s.setReg a (s.word (s.reg b).toNat (s.reg c).toNat)).advance 1)) ∨
      (s.validAccess (s.reg b) (s.reg c) = false ∧ exec (.sload a b c) s = .next (raiseFault .dataAddress s)) := by
  rcases memRead_cases s (s.reg b) (s.reg c) with ⟨h, e⟩ | ⟨h, e⟩
  · exact .inl ⟨h, by simp only [exec, execSload, e]⟩
  · exact .inr ⟨h, by simp only [exec, execSload, e]⟩

/-- `sstore` writes the addressed word or takes DATA_ADDRESS. -/
theorem exec_sstore_cases (a b c : Reg) (s : State) :
    (s.validAccess (s.reg a) (s.reg b) = true ∧
        exec (.sstore a b c) s = .next ((s.setWord (s.reg a).toNat (s.reg b).toNat (s.reg c)).advance 2)) ∨
      (s.validAccess (s.reg a) (s.reg b) = false ∧ exec (.sstore a b c) s = .next (raiseFault .dataAddress s)) := by
  rcases memWrite_cases s (s.reg a) (s.reg b) (s.reg c) with ⟨h, e⟩ | ⟨h, e⟩
  · exact .inl ⟨h, by simp only [exec, execSstore, e]⟩
  · exact .inr ⟨h, by simp only [exec, execSstore, e]⟩

/-- `div` writes the quotient or takes DIVIDE_BY_ZERO. -/
theorem exec_div_cases (a b c : Reg) (s : State) :
    (s.reg c ≠ 0 ∧ exec (.div a b c) s =
        .next ((s.setReg a (BitVec.ofNat 32 ((s.reg b).toNat / (s.reg c).toNat))).advance 5)) ∨
      (s.reg c = 0 ∧ exec (.div a b c) s = .next (raiseFault .divideByZero s)) := by
  rcases quotientWord_cases (s.reg b) (s.reg c) with ⟨h, e⟩ | ⟨h, e⟩
  · exact .inl ⟨h, by simp only [exec, execDiv, e]⟩
  · exact .inr ⟨h, by simp only [exec, execDiv, e]⟩

/-- `map` binds an identifier and writes it, or takes ALLOCATION. -/
theorem exec_map_cases (b c : Reg) (s : State) :
    (∃ id, s.mapTarget = some id ∧ (s.reg c).toNat ≤ capacity s.cfg id ∧
        exec (.map b c) s =
          .next (((s.afterMap id (s.reg c).toNat).setReg b (BitVec.ofNat 32 id)).advance 8)) ∨
      ((∀ id, s.mapTarget = some id → capacity s.cfg id < (s.reg c).toNat) ∧
        exec (.map b c) s = .next (raiseFault .allocation s)) := by
  rcases mapSegment_cases s (s.reg c).toNat with ⟨id, ht, hn, e⟩ | ⟨h, e⟩
  · exact .inl ⟨id, ht, hn, by simp only [exec, execMap, e]⟩
  · exact .inr ⟨h, by simp only [exec, execMap, e]⟩

/-- `unmap` retires the identifier or takes one of its three faults. -/
theorem exec_unmap_cases (c : Reg) (s : State) :
    ((s.reg c).toNat < s.nextFree ∧ (s.reg c).toNat ≠ 0 ∧ s.live (s.reg c).toNat = true ∧
        exec (.unmap c) s = .next ((s.afterUnmap (s.reg c).toNat).advance 9)) ∨
      (s.nextFree ≤ (s.reg c).toNat ∧ exec (.unmap c) s = .next (raiseFault .unmapOutOfRange s)) ∨
      ((s.reg c).toNat < s.nextFree ∧ (s.reg c).toNat = 0 ∧ exec (.unmap c) s = .next (raiseFault .unmapZero s)) ∨
      ((s.reg c).toNat < s.nextFree ∧ (s.reg c).toNat ≠ 0 ∧ s.live (s.reg c).toNat = false ∧
        exec (.unmap c) s = .next (raiseFault .unmapNotLive s)) := by
  rcases unmapSegment_cases s (s.reg c).toNat with ⟨h1, h2, h3, e⟩ | ⟨h1, e⟩ | ⟨h1, h2, e⟩ | ⟨h1, h2, h3, e⟩
  · exact .inl ⟨h1, h2, h3, by simp only [exec, execUnmap, e]⟩
  · exact .inr (.inl ⟨h1, by simp only [exec, execUnmap, e]⟩)
  · exact .inr (.inr (.inl ⟨h1, h2, by simp only [exec, execUnmap, e]⟩))
  · exact .inr (.inr (.inr ⟨h1, h2, h3, by simp only [exec, execUnmap, e]⟩))

/-- `out` appends the byte or takes OUTPUT_RANGE. -/
theorem exec_out_cases (c : Reg) (s : State) :
    ((s.reg c).toNat ≤ 255 ∧ exec (.out c) s =
        .next (State.advance { s with outSeq := s.outSeq ++ [BitVec.ofNat 8 (s.reg c).toNat] } 10)) ∨
      (255 < (s.reg c).toNat ∧ exec (.out c) s = .next (raiseFault .outputRange s)) := by
  by_cases h : 255 < (s.reg c).toNat
  · exact .inr ⟨h, by simp only [exec, execOut, outByte, if_pos h]⟩
  · exact .inl ⟨by omega, by simp only [exec, execOut, outByte, if_neg h]⟩

/-- `loadprog` jumps, installs and jumps, or takes PROGRAM_SOURCE. -/
theorem exec_loadprog_cases (b c : Reg) (s : State) :
    ((s.reg b).toNat = 0 ∧ exec (.loadprog b c) s = .next (s.complete 12 (s.reg c))) ∨
      ((s.reg b).toNat ≠ 0 ∧ (s.reg b).toNat < s.cfg.nseg ∧ s.live (s.reg b).toNat = true ∧
        exec (.loadprog b c) s =
          .next ((s.setSlot 0 ((s.slot 0).installed (s.slot (s.reg b).toNat))).complete 12 (s.reg c))) ∨
      ((s.reg b).toNat ≠ 0 ∧ (s.cfg.nseg ≤ (s.reg b).toNat ∨ s.live (s.reg b).toNat = false) ∧
        exec (.loadprog b c) s = .next (raiseFault .programSource s)) := by
  rcases installSegment_cases s (s.reg b).toNat with ⟨h, e⟩ | ⟨h1, h2, h3, e⟩ | ⟨h1, h2, e⟩
  · exact .inl ⟨h, by simp only [exec, execLoadprog, e]⟩
  · exact .inr (.inl ⟨h1, h2, h3, by simp only [exec, execLoadprog, e]⟩)
  · exact .inr (.inr ⟨h1, h2, by simp only [exec, execLoadprog, e]⟩)

end Sys2Proof.Machine
end

