-- ==== Sys2Proof/Laws/PerInstr.lean ====
section
/-! SUPPORT. The statements made for each instruction, one lemma per constructor. -/

/-- The word of the instruction selects the instruction's row of the opcode table: its bits 31:28 are the row's opcode,
which is at most 13 (R69, R78, R79). -/
def Sys2Proof.Laws.OpcodeBits.Statement (i : Sys2Proof.Instr) : Prop :=
  (Sys2Proof.encode i).toNat / 2 ^ 28 = i.opcode.toNat ∧ i.opcode.toNat ≤ 13

namespace Sys2Proof.Laws.OpcodeBits

theorem cmov (a b c : Reg) : Statement (.cmov a b c) := ⟨opcode_encR _ _ _ _, by simp [Instr.opcode]⟩

theorem sload (a b c : Reg) : Statement (.sload a b c) := ⟨opcode_encR _ _ _ _, by simp [Instr.opcode]⟩

theorem sstore (a b c : Reg) : Statement (.sstore a b c) := ⟨opcode_encR _ _ _ _, by simp [Instr.opcode]⟩

theorem add (a b c : Reg) : Statement (.add a b c) := ⟨opcode_encR _ _ _ _, by simp [Instr.opcode]⟩

theorem mul (a b c : Reg) : Statement (.mul a b c) := ⟨opcode_encR _ _ _ _, by simp [Instr.opcode]⟩

theorem div (a b c : Reg) : Statement (.div a b c) := ⟨opcode_encR _ _ _ _, by simp [Instr.opcode]⟩

theorem nand (a b c : Reg) : Statement (.nand a b c) := ⟨opcode_encR _ _ _ _, by simp [Instr.opcode]⟩

theorem halt : Statement (.halt) := ⟨opcode_encR _ _ _ _, by simp [Instr.opcode]⟩

theorem map (b c : Reg) : Statement (.map b c) := ⟨opcode_encR _ _ _ _, by simp [Instr.opcode]⟩

theorem unmap (c : Reg) : Statement (.unmap c) := ⟨opcode_encR _ _ _ _, by simp [Instr.opcode]⟩

theorem out (c : Reg) : Statement (.out c) := ⟨opcode_encR _ _ _ _, by simp [Instr.opcode]⟩

theorem inp (c : Reg) : Statement (.inp c) := ⟨opcode_encR _ _ _ _, by simp [Instr.opcode]⟩

theorem loadprog (b c : Reg) : Statement (.loadprog b c) := ⟨opcode_encR _ _ _ _, by simp [Instr.opcode]⟩

theorem li (a : Reg) (imm : BitVec 25) : Statement (.li a imm) := ⟨opcode_encI a imm, by simp [Instr.opcode]⟩

end Sys2Proof.Laws.OpcodeBits
end

