-- ==== Sys2Proof/Laws/Safety.lean ====
section
/-! SUPPORT. Small laws about the terms of Safety.lean and about the host port. -/

namespace Sys2Proof.Machine

/-- Equal slots are equal segments. -/
theorem sameSegment_of_slot {s t : State} {id : Nat} (h : t.slot id = s.slot id) : SameSegment s t id := by
  refine ⟨?_, ?_, fun i => ?_⟩ <;> simp [State.live, State.len, State.word, h]

/-- The capacity of a slot other than 0 (R29). -/
theorem capacity_of_ne_zero {cfg : Config} {id : Nat} (h : id ≠ 0) : capacity cfg id = cfg.segCap := by
  simp [capacity, h]

/-- The identifier `Map` chooses in a state the controller can be in is a slot's, not 0, fits a register, and is not
live. -/
theorem mapTarget_of_inv {s : State} (hi : ControllerInv s) {id : Nat} (h : s.mapTarget = some id) :
    id ≠ 0 ∧ id < s.cfg.nseg ∧ id < 2 ^ 32 ∧ s.live id = false := by
  have hw := hi.cfg_wf
  simp only [Config.wellFormed, Bool.and_eq_true, decide_eq_true_eq] at hw
  have h1 := hi.next_le
  have h0 := hi.next_pos
  rcases (mapTarget_eq_some s id).1 h with ⟨rest, hp⟩ | ⟨hp, hn, rfl⟩
  · have hm : id ∈ s.pool := by simp [hp]
    have hlt : id < s.nextFree := by
      by_contra hc; exact (hi.fresh id (by omega)).2 hm
    refine ⟨fun e => hi.pool_pos (e ▸ hm), by omega, by omega, ?_⟩
    cases hl : s.live id
    · rfl
    · exact absurd hm ((hi.issued id hlt).1 hl)
  · exact ⟨by omega, hn, by omega, (hi.fresh _ le_rfl).1⟩

/-- When the unit is at an `in`: it is RUNNING and the word at the pc decodes to one. -/
theorem inputRequest_eq_some {s : State} {c : Reg} (h : s.inputRequest = some c) :
    s.run = .running ∧ ∃ w, fetch s = .ok w ∧ decode w = .ok (.inp c) := by
  unfold State.inputRequest at h
  split at h <;> try cases h
  rename_i w hr hf
  split at h <;> cases h
  exact ⟨hr, w, hf, ‹_›⟩

/-- A RUNNING unit whose fetched word decodes to an `in` is at one. -/
theorem inputRequest_of_decode {s : State} {c : Reg} {w : Word} (h : s.run = .running) (hf : fetch s = .ok w)
    (hd : decode w = .ok (.inp c)) : s.inputRequest = some c := by
  simp [State.inputRequest, h, hf, hd]

/-- A state whose lists are short has the controller's invariant if each entry is as it should be: what holds of every
identifier and every index follows, since an unlisted slot is not live and has no length and no words. -/
theorem controllerInv_of_entries (s : State)
    (h : s.cfg.wellFormed = true ∧ Memory.wf s.mem = true ∧ s.live 0 = true ∧ 1 ≤ s.nextFree ∧ s.nextFree ≤ s.cfg.nseg ∧
      (∀ id, id < s.nextFree → (s.live id = true ↔ id ∉ s.pool)) ∧ s.pool.Nodup ∧
      (∀ id ∈ s.pool, id < s.nextFree ∧ id ≠ 0) ∧
      ∀ p ∈ s.mem, p.1 < s.nextFree ∧ p.2.len ≤ capacity s.cfg p.1 ∧ ∀ q ∈ p.2.words, q.1 < capacity s.cfg p.1) :
    ControllerInv s := by
  obtain ⟨hc, hm, h0, h1, h2, hi, hn, hp, he⟩ := h
  refine ⟨hc, hm, h0, h1, h2, hi, hn, fun id h => ?_, fun h => (hp 0 h).2 rfl, fun id => ?_, fun id i h => ?_⟩
  · refine ⟨?_, fun hm => absurd (hp id hm).1 (by omega)⟩
    rcases sparseGet_mem Slot.empty s.mem id with e | e
    · unfold State.live State.slot; rw [e]; rfl
    · exact absurd (he _ e).1 (by simpa using h)
  · rcases sparseGet_mem Slot.empty s.mem id with e | e
    · unfold State.len State.slot; rw [e]; exact Nat.zero_le _
    · exact (he _ e).2.1
  · unfold State.word State.slot Slot.word
    rcases sparseGet_mem Slot.empty s.mem id with e | e
    · rw [e]; rfl
    · rcases sparseGet_mem 0 (sparseGet Slot.empty s.mem id).words i with e' | e'
      · exact e'
      · exact absurd ((he _ e).2.2 _ e') (by simpa using h)

end Sys2Proof.Machine
end

