-- ==== Sys2Proof/Laws/Step.lean ====
section
/-! SUPPORT. What an instruction and a step can do, said once: an instruction completes or takes one of its own faults,
and a step of a running unit is a fetch fault, an illegal opcode or an instruction. -/

namespace Sys2Proof.Machine

/-- What holds of every completed instruction. -/
structure Completes (i : Instr) (s t : State) : Prop where
  cfg : t.cfg = s.cfg
  inSeq : t.inSeq = s.inSeq
  cause : t.cause = s.cause
  faultWord : t.faultWord = s.faultWord
  lastOp : t.lastOp = i.opcode
  lastValid : t.lastValid = true
  run : t.run = if i = .halt then .halted else s.run
  inWait : t.inWait = s.inWait ∨ t.inWait = false ∧ ∃ c, i = .inp c

/-- An instruction completes, or it takes one of its own faults and does nothing else. -/
theorem exec_cases (i : Instr) (s : State) :
    (∃ t, exec i s = .next t ∧ Completes i s t) ∨ ∃ c, c ≠ .none ∧ exec i s = .next (raiseFault c s) := by
  cases i with
  | cmov a b c =>
    refine .inl ⟨_, rfl, ?_⟩
    by_cases h : s.reg c = 0 <;> simp only [h, if_true, if_false] <;> constructor <;> first | rfl | exact .inl rfl
  | sload a b c =>
    rcases exec_sload_cases a b c s with ⟨-, e⟩ | ⟨-, e⟩
    · exact .inl ⟨_, e, ⟨rfl, rfl, rfl, rfl, rfl, rfl, rfl, .inl rfl⟩⟩
    · exact .inr ⟨_, by decide, e⟩
  | sstore a b c =>
    rcases exec_sstore_cases a b c s with ⟨-, e⟩ | ⟨-, e⟩
    · exact .inl ⟨_, e, ⟨rfl, rfl, rfl, rfl, rfl, rfl, rfl, .inl rfl⟩⟩
    · exact .inr ⟨_, by decide, e⟩
  | add a b c => exact .inl ⟨_, rfl, ⟨rfl, rfl, rfl, rfl, rfl, rfl, rfl, .inl rfl⟩⟩
  | mul a b c => exact .inl ⟨_, rfl, ⟨rfl, rfl, rfl, rfl, rfl, rfl, rfl, .inl rfl⟩⟩
  | div a b c =>
    rcases exec_div_cases a b c s with ⟨-, e⟩ | ⟨-, e⟩
    · exact .inl ⟨_, e, ⟨rfl, rfl, rfl, rfl, rfl, rfl, rfl, .inl rfl⟩⟩
    · exact .inr ⟨_, by decide, e⟩
  | nand a b c => exact .inl ⟨_, rfl, ⟨rfl, rfl, rfl, rfl, rfl, rfl, rfl, .inl rfl⟩⟩
  | halt => exact .inl ⟨_, rfl, ⟨rfl, rfl, rfl, rfl, rfl, rfl, rfl, .inl rfl⟩⟩
  | map b c =>
    rcases exec_map_cases b c s with ⟨id, -, -, e⟩ | ⟨-, e⟩
    · exact .inl ⟨_, e, ⟨rfl, rfl, rfl, rfl, rfl, rfl, rfl, .inl rfl⟩⟩
    · exact .inr ⟨_, by decide, e⟩
  | unmap c =>
    rcases exec_unmap_cases c s with ⟨-, -, -, e⟩ | ⟨-, e⟩ | ⟨-, -, e⟩ | ⟨-, -, -, e⟩
    · exact .inl ⟨_, e, ⟨rfl, rfl, rfl, rfl, rfl, rfl, rfl, .inl rfl⟩⟩
    all_goals exact .inr ⟨_, by decide, e⟩
  | out c =>
    rcases exec_out_cases c s with ⟨-, e⟩ | ⟨-, e⟩
    · exact .inl ⟨_, e, ⟨rfl, rfl, rfl, rfl, rfl, rfl, rfl, .inl rfl⟩⟩
    · exact .inr ⟨_, by decide, e⟩
  | inp c => exact .inl ⟨_, rfl, ⟨rfl, rfl, rfl, rfl, rfl, rfl, rfl, .inr ⟨rfl, c, rfl⟩⟩⟩
  | loadprog b c =>
    rcases exec_loadprog_cases b c s with ⟨-, e⟩ | ⟨-, -, -, e⟩ | ⟨-, -, e⟩
    · exact .inl ⟨_, e, ⟨rfl, rfl, rfl, rfl, rfl, rfl, rfl, .inl rfl⟩⟩
    · exact .inl ⟨_, e, ⟨rfl, rfl, rfl, rfl, rfl, rfl, rfl, .inl rfl⟩⟩
    · exact .inr ⟨_, by decide, e⟩
  | li a imm => exact .inl ⟨_, rfl, ⟨rfl, rfl, rfl, rfl, rfl, rfl, rfl, .inl rfl⟩⟩

/-- What an instruction can do to memory, the reuse pool and `next_free`: nothing, or what one of four instructions
does. -/
theorem exec_memory_cases {i : Instr} {s t : State} (h : exec i s = .next t) :
    (t.mem = s.mem ∧ t.nextFree = s.nextFree ∧ t.pool = s.pool) ∨
      (∃ a b c, i = .sstore a b c ∧ s.validAccess (s.reg a) (s.reg b) = true ∧
        t.mem = (s.setWord (s.reg a).toNat (s.reg b).toNat (s.reg c)).mem ∧ t.nextFree = s.nextFree ∧ t.pool = s.pool) ∨
      (∃ b c id, i = .map b c ∧ s.mapTarget = some id ∧ (s.reg c).toNat ≤ capacity s.cfg id ∧
        t.mem = (s.afterMap id (s.reg c).toNat).mem ∧ t.nextFree = (s.afterMap id (s.reg c).toNat).nextFree ∧
        t.pool = (s.afterMap id (s.reg c).toNat).pool) ∨
      (∃ c, i = .unmap c ∧ (s.reg c).toNat < s.nextFree ∧ (s.reg c).toNat ≠ 0 ∧ s.live (s.reg c).toNat = true ∧
        t.mem = (s.afterUnmap (s.reg c).toNat).mem ∧ t.nextFree = s.nextFree ∧ t.pool = (s.reg c).toNat :: s.pool) ∨
      (∃ b c, i = .loadprog b c ∧ (s.reg b).toNat ≠ 0 ∧ s.live (s.reg b).toNat = true ∧
        t.mem = (s.setSlot 0 ((s.slot 0).installed (s.slot (s.reg b).toNat))).mem ∧ t.nextFree = s.nextFree ∧
        t.pool = s.pool) := by
  cases i with
  | cmov a b c => cases h; left; split <;> exact ⟨rfl, rfl, rfl⟩
  | sload a b c =>
    rcases exec_sload_cases a b c s with ⟨-, e⟩ | ⟨-, e⟩ <;> rw [e] at h <;> cases h <;> exact .inl ⟨rfl, rfl, rfl⟩
  | sstore a b c =>
    rcases exec_sstore_cases a b c s with ⟨e', e⟩ | ⟨-, e⟩ <;> rw [e] at h <;> cases h
    · exact .inr (.inl ⟨a, b, c, rfl, e', rfl, rfl, rfl⟩)
    · exact .inl ⟨rfl, rfl, rfl⟩
  | div a b c =>
    rcases exec_div_cases a b c s with ⟨-, e⟩ | ⟨-, e⟩ <;> rw [e] at h <;> cases h <;> exact .inl ⟨rfl, rfl, rfl⟩
  | map b c =>
    rcases exec_map_cases b c s with ⟨id, h1, h2, e⟩ | ⟨-, e⟩ <;> rw [e] at h <;> cases h
    · exact .inr (.inr (.inl ⟨b, c, id, rfl, h1, h2, rfl, rfl, rfl⟩))
    · exact .inl ⟨rfl, rfl, rfl⟩
  | unmap c =>
    rcases exec_unmap_cases c s with ⟨h1, h2, h3, e⟩ | ⟨-, e⟩ | ⟨-, -, e⟩ | ⟨-, -, -, e⟩ <;> rw [e] at h <;> cases h
    · exact .inr (.inr (.inr (.inl ⟨c, rfl, h1, h2, h3, rfl, rfl, rfl⟩)))
    all_goals exact .inl ⟨rfl, rfl, rfl⟩
  | out c =>
    rcases exec_out_cases c s with ⟨-, e⟩ | ⟨-, e⟩ <;> rw [e] at h <;> cases h <;> exact .inl ⟨rfl, rfl, rfl⟩
  | loadprog b c =>
    rcases exec_loadprog_cases b c s with ⟨-, e⟩ | ⟨h1, h2, h3, e⟩ | ⟨-, -, e⟩ <;> rw [e] at h <;> cases h
    · exact .inl ⟨rfl, rfl, rfl⟩
    · exact .inr (.inr (.inr (.inr ⟨b, c, rfl, h1, h3, rfl, rfl, rfl⟩)))
    · exact .inl ⟨rfl, rfl, rfl⟩
  | _ => cases h; exact .inl ⟨rfl, rfl, rfl⟩

/-- What a step that answers a next state has done. -/
theorem step_cases {s t : State} (h : step s = .next t) :
    s.run = .running ∧
      ((fetch s = .error .fetchAddress ∧ t = trapEntry .fetchAddress 0 s) ∨
        (∃ w, fetch s = .ok w ∧ 14 ≤ (opcodeField w).toNat ∧ t = trapEntry .illegalOpcode w s) ∨
        ∃ w i, fetch s = .ok w ∧ decode w = .ok i ∧ i.opcode = opcodeField w ∧ exec i s = .next t) := by
  unfold step at h
  split at h
  case h_1 | h_2 | h_3 => cases h
  case h_4 hr =>
    refine ⟨hr, ?_⟩
    rcases fetch_cases s with ⟨-, hf⟩ | ⟨-, hf⟩
    · rw [hf] at h
      rcases decode_cases (s.word 0 s.pc.toNat) with ⟨i, hd, ho, -⟩ | ⟨hd, ho⟩
      · simp only [hd] at h
        exact .inr (.inr ⟨_, i, hf, hd, ho, h⟩)
      · simp only [hd] at h
        cases h
        exact .inr (.inl ⟨_, hf, ho, rfl⟩)
    · rw [hf] at h
      cases h
      exact .inl ⟨hf, rfl⟩

end Sys2Proof.Machine
end

