-- ==== Sys2Proof/Tests/Slice0.lean ====
section
/-! SUPPORT. Tests of the model's own work, from the vectors of spec/95_test_vectors.md, and for every obligation that has
hypotheses a state and operands that meet them. -/

namespace Sys2Proof.Tests
open Sys2Proof.Machine

/-! ### Helpers -/

/-- Configuration K of the vectors. -/
def cfgK : Config := { nseg := 8, seg0Cap := 64, segCap := 16 }

/-- The start state of the single-instruction vectors: RESET, LOAD of `w` and of a `halt`, START. -/
def start (w : Word) (inSeq : List Byte := []) : State := boot [w, 0x70000000] (State.resetWith cfgK inSeq)

/-- Registers set before the step. -/
def withRegs (s : State) (l : List (Reg × Word)) : State := l.foldl (fun u p => u.setReg p.1 p.2) s

/-- The controller operation `Map(n)` as a setup. -/
def mapped (s : State) (n : Nat) : State :=
  match mapSegment s n with
  | .ok (_, t) => t
  | .error _ => s

/-- The controller operation `Unmap(id)` as a setup. -/
def unmapped (s : State) (id : Nat) : State :=
  match unmapSegment s id with
  | .ok t => t
  | .error _ => s

/-- What one step leaves, seen through `f`; nothing if there is no step. -/
def after {α : Type} (s : State) (f : State → α) : Option α :=
  match step s with
  | .next t => some (f t)
  | .fault _ => none
  | .refused _ => none

/-! ### Well-formedness -/

/-- R8: NSEG is at least 1. -/
theorem test_config_no_slot : Config.wellFormed { nseg := 0, seg0Cap := 4, segCap := 4 } = false := by decide

/-- R8: NSEG is at most 2^32. -/
theorem test_config_too_many_slots : Config.wellFormed { nseg := 2 ^ 32 + 1, seg0Cap := 4, segCap := 4 } = false := by
  decide

/-- R8: SEG0_CAP is at most 2^32. -/
theorem test_config_program_too_long : Config.wellFormed { nseg := 1, seg0Cap := 2 ^ 32 + 1, segCap := 4 } = false := by
  decide

/-- R8: SEG_CAP is at most SEG0_CAP. -/
theorem test_config_segment_too_long : Config.wellFormed { nseg := 1, seg0Cap := 4, segCap := 5 } = false := by decide

theorem test_config_accepted : cfgK.wellFormed = true ∧ Config.ideal.wellFormed = true := by decide

/-- R77, R79: an opcode above 13, a set bit among 27:9, and a set bit in an unused field A, A and B, or A, B and C. -/
theorem test_word_not_canonical : canonicalWord 0xE0000000 = false ∧ canonicalWord 0x00000200 = false ∧
    canonicalWord 0x8000004A = false ∧ canonicalWord 0xC0000050 = false ∧ canonicalWord 0x90000009 = false ∧
    canonicalWord 0xA0000008 = false ∧ canonicalWord 0xB0000040 = false ∧ canonicalWord 0x70000001 = false := by decide

theorem test_word_canonical : canonicalWord 0x00000053 = true ∧ canonicalWord 0x70000000 = true ∧
    canonicalWord 0xDFFFFFFF = true := by decide

/-! ### Decoding: the words of the vectors -/

theorem test_decode_cmov : decode 0x00000053 = .ok (.cmov .r1 .r2 .r3) := by decide
theorem test_decode_sload : decode 0x10000042 = .ok (.sload .r1 .r0 .r2) := by decide
theorem test_decode_sstore : decode 0x200000AC = .ok (.sstore .r2 .r5 .r4) := by decide
theorem test_decode_add : decode 0x3000010A = .ok (.add .r4 .r1 .r2) := by decide
theorem test_decode_mul : decode 0x40000164 = .ok (.mul .r5 .r4 .r4) := by decide
theorem test_decode_div : decode 0x50000088 = .ok (.div .r2 .r1 .r0) := by decide
theorem test_decode_nand : decode 0x60000180 = .ok (.nand .r6 .r0 .r0) := by decide
theorem test_decode_halt : decode 0x7FFFFFFF = .ok .halt := by decide
theorem test_decode_map : decode 0x80000039 = .ok (.map .r7 .r1) := by decide
theorem test_decode_unmap : decode 0x90000003 = .ok (.unmap .r3) := by decide
theorem test_decode_out : decode 0xA0000006 = .ok (.out .r6) := by decide
theorem test_decode_in : decode 0xB0000002 = .ok (.inp .r2) := by decide
theorem test_decode_loadprog : decode 0xC000000A = .ok (.loadprog .r1 .r2) := by decide
theorem test_decode_li : decode 0xD7234567 = .ok (.li .r3 0x1234567) := by decide

/-- d3: the unused bits of a format R word are ignored. -/
theorem test_decode_ignores_unused_bits : decode 0x3FFFFE53 = .ok (.add .r1 .r2 .r3) := by decide

/-- d1, d2: opcodes 14 and 15 are rejected by name. -/
theorem test_decode_rejects : decode 0xE0000000 = .error (.illegalOpcode 14) ∧
    decode 0xFFFFFFFF = .error (.illegalOpcode 15) := by decide

/-- Words the vectors give for instructions with every operand different. -/
theorem test_encode : encode (.cmov .r5 .r7 .r1) = 0x00000179 ∧ encode (.map .r1 .r2) = 0x8000000A ∧
    encode (.loadprog .r2 .r0) = 0xC0000010 ∧ encode (.unmap .r1) = 0x90000001 ∧
    encode (.li .r7 0x1FFFFFF) = 0xDFFFFFFF := by decide

/-- The table's bits are the word's own bits (R69). -/
theorem test_decodeTableWord : decodeTableWord 32 0x2000009C = some (.sstore .r2 .r3 .r4) ∧
    decodeTableWord 32 0xF0000000 = none := by decide

/-- Each row's instruction runs as the first one after reset. -/
theorem test_withFetchWord : [0x00000053, 0x10000053, 0x20000053, 0x30000053, 0x40000053, 0x50000053, 0x60000053,
    0x70000000, 0x8000000A, 0x90000001, 0xA0000001, 0xB0000001, 0xC000000A, 0xD0000048].all (fun w =>
      (after (State.reset.withFetchWord 32 w) fun t => decide (t.run = .idle)) == some false) = true := by decide

/-! ### One step of each instruction -/

/-- cm4: the test reads the old value of a register that is also the destination. -/
theorem test_cmov_same_register : after (withRegs (start 0x00000051) [(.r1, 7), (.r2, 5)])
    (fun t => (t.reg .r1, t.pc)) = some (5, 1) := by decide

/-- cm2, cm1's status. -/
theorem test_cmov_zero : after (withRegs (start 0x00000053) [(.r1, 9), (.r2, 5)])
    (fun t => (t.reg .r1, t.pc, t.statusWord)) = some (9, 1, 0x09) := by decide

/-- ex1. -/
theorem test_sload_reads : after (withRegs ((mapped (start 0x10000053) 4).setWord 1 2 0xCAFEF00D)
    [(.r2, 1), (.r3, 2)]) (fun t => t.reg .r1) = some 0xCAFEF00D := by decide

/-- sl3. -/
theorem test_sload_past_end : after (withRegs (mapped (start 0x10000053) 3) [(.r2, 1), (.r3, 3)])
    (fun t => (t.reg .r1, t.pc, t.statusWord, t.faultWord)) = some (0, 0, 0x803, 0x10000053) := by decide

/-- ss1. -/
theorem test_sstore_writes : after (withRegs (mapped (start 0x20000053) 3)
    [(.r1, 1), (.r2, 2), (.r3, 0x1234)]) (fun t => (t.word 1 0, t.word 1 1, t.word 1 2, t.pc)) =
    some (0, 0, 0x1234, 1) := by decide

/-- ss2. -/
theorem test_sstore_past_end : after (withRegs (mapped (start 0x20000053) 3)
    [(.r1, 1), (.r2, 3), (.r3, 0x1234)]) (fun t => (t.word 1 2, t.word 1 3, t.cause, t.pc)) =
    some (0, 0, .dataAddress, 0) := by decide

/-- add2. -/
theorem test_add_wraps : after (withRegs (start 0x30000053) [(.r2, 0xFFFFFFFF), (.r3, 0xFFFFFFFF)])
    (fun t => t.reg .r1) = some 0xFFFFFFFE := by decide

/-- d3. -/
theorem test_add_unused_bits : after (withRegs (start 0x3FFFFE53) [(.r2, 1), (.r3, 2)])
    (fun t => (t.reg .r1, t.pc)) = some (3, 1) := by decide

/-- mul3. -/
theorem test_mul_wraps : after (withRegs (start 0x40000053) [(.r2, 0x12345678), (.r3, 0x9ABCDEF0)])
    (fun t => t.reg .r1) = some 0x242D2080 := by decide

/-- mulsame. -/
theorem test_mul_same_register : after (withRegs (start 0x40000049) [(.r1, 0x10000)])
    (fun t => t.reg .r1) = some 0 := by decide

/-- div6: unsigned. -/
theorem test_div_unsigned : after (withRegs (start 0x50000053) [(.r2, 0x80000000), (.r3, 0xFFFFFFFF)])
    (fun t => t.reg .r1) = some 0 := by decide

/-- div7. -/
theorem test_div_by_zero : after (withRegs (start 0x50000053) [(.r1, 0x55), (.r2, 9)])
    (fun t => (t.reg .r1, t.pc, t.statusWord, t.faultWord)) = some (0x55, 0, 0x203, 0x50000053) := by decide

/-- nand3. -/
theorem test_nand : after (withRegs (start 0x60000053) [(.r2, 0xF0F0F0F0), (.r3, 0xFF00FF00)])
    (fun t => t.reg .r1) = some 0x0FFF0FFF := by decide

/-- nand4. -/
theorem test_nand_complement : after (withRegs (start 0x60000053) [(.r2, 0x12345678), (.r3, 0x12345678)])
    (fun t => t.reg .r1) = some 0xEDCBA987 := by decide

/-- h2. -/
theorem test_halt : after (start 0x7FFFFFFF) (fun t => (t.run, t.pc, t.statusWord, t.outSeq)) =
    some (.halted, 0, 0x7A, []) := by decide

/-- mp6: the freed identifier comes back, its words zero. -/
theorem test_map_reuses : after (withRegs (unmapped (mapped
    ((mapped (start 0x80000009) 2).setWord 1 0 0x99) 1) 1) [(.r1, 2)])
    (fun t => (t.reg .r1, t.len 1, t.word 1 0, t.pool)) = some (1, 2, 0, []) := by decide

/-- mp3. -/
theorem test_map_too_long : after (withRegs (start 0x8000000A) [(.r1, 9), (.r2, 17)])
    (fun t => (t.reg .r1, t.nextFree, t.statusWord)) = some (9, 1, 0x403) := by decide

/-- um1. -/
theorem test_unmap : after (withRegs (mapped (start 0x90000001) 3) [(.r1, 1)])
    (fun t => (t.live 1, t.pool, t.pc)) = some (false, [1], 1) := by decide

/-- um4. -/
theorem test_unmap_twice : after (withRegs (unmapped (mapped (start 0x90000001) 1) 1) [(.r1, 1)])
    (fun t => (t.statusWord, t.pool)) = some (0x703, [1]) := by decide

/-- o3. -/
theorem test_out_largest : after (withRegs (start 0xA0000001) [(.r1, 255)])
    (fun t => (t.outSeq, t.pc)) = some ([255], 1) := by decide

/-- o4. -/
theorem test_out_too_large : after (withRegs (start 0xA0000001) [(.r1, 256)])
    (fun t => (t.outSeq, t.statusWord)) = some ([], 0x303) := by decide

/-- i3. -/
theorem test_in_byte : after (start 0xB0000001 [0xFF]) (fun t => (t.reg .r1, t.pc, t.inWait)) =
    some (0x000000FF, 1, false) := by decide

/-- i2. -/
theorem test_in_eof : after (start 0xB0000001) (fun t => t.reg .r1) = some 0xFFFFFFFF := by decide

/-- lp2. -/
theorem test_loadprog_installs : after (withRegs (((mapped (start 0xC000000A) 2).setWord 1 0 0xD0000042).setWord
    1 1 0x70000000) [(.r1, 1)]) (fun t => (t.len 0, t.word 0 0, t.word 0 1, t.pc, t.live 1)) =
    some (2, 0xD0000042, 0x70000000, 0, true) := by decide

/-- lp3. -/
theorem test_loadprog_no_source : after (withRegs (start 0xC000000A) [(.r1, 1), (.r2, 1)])
    (fun t => (t.statusWord, t.len 0, t.pc)) = some (0xA03, 2, 0) := by decide

/-- li3. -/
theorem test_li_largest : after (start 0xDFFFFFFF) (fun t => t.reg .r7) = some 0x01FFFFFF := by decide

/-- li2. -/
theorem test_li_zero : after (withRegs (start 0xDE000000) [(.r7, 5)]) (fun t => t.reg .r7) = some 0 := by decide

/-! ### The dispatcher and the host port -/

/-- d1. -/
theorem test_illegal_opcode : after (start 0xE0000000) (fun t => (t.pc, t.faultWord, t.statusWord)) =
    some (0, 0xE0000000, 0x103) := by decide

/-- d4, ho9. -/
theorem test_fetch_of_nothing : after (boot (pack []) (State.resetWith cfgK []))
    (fun t => (t.pc, t.faultWord, t.statusWord)) = some (0, 0, 0x903) := by decide

/-- d5: the jump completes and the next fetch faults. -/
theorem test_jump_past_end : (after (withRegs (start 0xC000000A) [(.r2, 2)])
    fun u => after u fun t => (u.run, t.pc, t.faultWord, t.statusWord)) =
    some (some (.running, 2, 0, 0x9CB)) := by decide

/-- i5: the wait, seen by the host. -/
theorem test_in_wait : (start 0xB0000001).enterWait.statusWord = 0x05 ∧ (start 0xB0000001).enterWait.pc = 0 ∧
    (hostOffer (.byte 0x41) (start 0xB0000001).enterWait).reg .r1 = 0x41 := by decide

/-- ho1, ho5. -/
theorem test_after_reset : let s := hostReset (start 0x70000000);
    s.readStatus 0 = 0 ∧ s.readStatus 1 = 0 ∧ s.readStatus 2 = 0 ∧ s.readStatus 3 = 0 ∧ s.len 0 = 0 := by decide

/-- ho2, ho3, ho4. -/
theorem test_load_overflow :
    let s := loadAll [1, 2, 3, 4] (State.resetWith { nseg := 1, seg0Cap := 4, segCap := 4 } []);
    let t := hostLoad 0xCAFEBABE s;
    s.run = .idle ∧ s.len 0 = 4 ∧ t.statusWord = 0xC03 ∧ t.faultWord = 0xCAFEBABE ∧ t.len 0 = 4 ∧ hostStart t = t := by
  decide

/-- ho6, ho7, ho8, ho9. -/
theorem test_pack : pack [0xD0, 0x00, 0x00, 0x48, 0xA0, 0x00, 0x00, 0x00] = [0xD0000048, 0xA0000000] ∧
    pack [0x70] = [0x70000000] ∧ pack [0x12, 0x34, 0x56, 0x78, 0x9A, 0xBC] = [0x12345678, 0x9ABC0000] ∧
    pack [] = [] := by decide

/-! ### Witnesses: for each obligation that has hypotheses, values that meet them, for every clause -/

/-- Segment 1 is live with three words, segment 2 has been freed; the word at the pc is `w`. -/
def busy (w : Word) : State := unmapped (mapped (mapped (start w) 3) 1) 2

/-- Every identifier is in use (mp5). -/
def full (w : Word) : State := (List.replicate 7 1).foldl mapped (start w)

/-- A state of each value of STATUS.STATE. -/
def inState (r : RunState) : State := { start 0x70000000 with run := r }

/-! Encoding -/

theorem test_witness_CanonicalWordsReencode : decode 0x30000053 = .ok (.add .r1 .r2 .r3) ∧ canonicalWord 0x30000053 = true ∧
    decode 0x3FFFFE53 = .ok (.add .r1 .r2 .r3) ∧ canonicalWord 0x3FFFFE53 = false := by decide

theorem test_witness_DecodingIsTotal : (0xDFFFFFFF : Word).toNat < 0xE0000000 ∧ 0xE0000000 ≤ (0xE0000000 : Word).toNat := by
  decide

theorem test_witness_IgnoredBitsHaveNoEffect :
    ((0xCFFFFFFF : Word).toNat < 0xD0000000 ∧
      (0xCFFFFFFF : Word) &&& 0xF00001FF = (0xC00001FF : Word) &&& 0xF00001FF) ∧
    ((0x8FFFFFFF : Word) &&& 0xF0000000 = 0x80000000 ∧
      (0x8FFFFFFF : Word) &&& 0xF000003F = (0x8000003F : Word) &&& 0xF000003F) ∧
    ((0x9FFFFFFF : Word) &&& 0xF0000000 = 0x90000000 ∧
      (0x9FFFFFFF : Word) &&& 0xF0000007 = (0x90000007 : Word) &&& 0xF0000007) ∧
    ((0xAFFFFFF8 : Word) &&& 0xF0000000 = 0xA0000000 ∧
      (0xAFFFFFF8 : Word) &&& 0xF0000007 = (0xA0000000 : Word) &&& 0xF0000007) ∧
    ((0xBFFFFFF8 : Word) &&& 0xF0000000 = 0xB0000000 ∧
      (0xBFFFFFF8 : Word) &&& 0xF0000007 = (0xB0000000 : Word) &&& 0xF0000007) ∧
    ((0xCFFFFFFF : Word) &&& 0xF0000000 = 0xC0000000 ∧
      (0xCFFFFFFF : Word) &&& 0xF000003F = (0xC000003F : Word) &&& 0xF000003F) ∧
    ((0x7FFFFFFF : Word) &&& 0xF0000000 = 0x70000000 ∧ (0x70000000 : Word) &&& 0xF0000000 = 0x70000000) := by decide

/-- The opcode field and field A; bit 5 lies below field A and bit 9 above it. -/
theorem test_witness_InsertThenExtract : 4 + 28 ≤ 32 ∧ 3 + 6 ≤ 32 ∧ 5 < 6 ∧ 6 + 3 ≤ 9 := by decide

/-! Reset, boot and the host interface -/

theorem test_witness_ResetSatisfiesInvariant : Config.ideal.wellFormed = true ∧
    Config.wellFormed { nseg := 1, seg0Cap := 0, segCap := 0 } = true := by decide

theorem test_witness_LoadAppendsOrOverflows :
    (let s := State.resetWith { nseg := 1, seg0Cap := 0, segCap := 0 } []; s.run = .idle ∧ s.len 0 = s.cfg.seg0Cap) ∧
    (let s := State.resetWith { nseg := 1, seg0Cap := 1, segCap := 1 } []; s.run = .idle ∧ s.len 0 ≠ s.cfg.seg0Cap) ∧
    (inState .running).run ≠ .idle := by decide

theorem test_witness_StartOnlyFromIdle : (inState .idle).run = .idle ∧ (inState .running).run ≠ .idle ∧
    (inState .halted).run ≠ .idle ∧ (inState .faulted).run ≠ .idle := by decide

theorem test_witness_ReadStatusRegisters : 2 < 3 := by decide

theorem test_witness_OnlyResetLeavesTerminalStates : (inState .halted).run = .halted ∧ (inState .faulted).run = .faulted ∧
    HostAction.start ≠ .reset ∧ HostAction.load 5 ≠ .reset := by decide

theorem test_witness_OfferedItemCompletesInput : (start 0xB0000001 [0x41]).inputRequest = some .r1 ∧
    (start 0xB0000001).inputRequest = some .r1 ∧ (start 0xB0000001).inWait = false := by decide

/-- A program of exactly SEG0_CAP words, its last index, and another identifier. -/
theorem test_witness_BootLoadsProgram : let s := State.resetWith { nseg := 2, seg0Cap := 2, segCap := 1 } [];
    let ws : List Word := [0xB0000001, 0x70000000];
    ws.length ≤ s.cfg.seg0Cap ∧ 1 < ws.length ∧ 1 ≠ 0 := by decide

theorem test_witness_PackBuildsBigEndianWords : 1 < (pack [0x12, 0x34, 0x56, 0x78, 0x9A]).length := by decide

/-! The dispatcher -/

theorem test_witness_StepRunsDecodedInstruction : (start 0x8000000A).run = .running ∧
    fetch (start 0x8000000A) = .ok 0x8000000A ∧ decode 0x8000000A = .ok (.map .r1 .r2) := by decide

theorem test_witness_FetchReadsSegmentZero :
    (let s : State := { start 0x70000000 with pc := 1 }; s.pc.toNat < s.len 0) ∧
    (let s : State := { start 0x70000000 with pc := 2 }; s.len 0 ≤ s.pc.toNat ∧ s.run = .running) := by decide

theorem test_witness_IllegalOpcodeFaults : (start 0xE0000000).run = .running ∧
    fetch (start 0xE0000000) = .ok 0xE0000000 ∧ 0xE0000000 ≤ (0xE0000000 : Word).toNat ∧
    fetch (start 0xFFFFFFFF) = .ok 0xFFFFFFFF ∧ 0xE0000000 ≤ (0xFFFFFFFF : Word).toNat := by decide

theorem test_witness_StepsExactlyWhileRunning : (∃ t, step (start 0xA0000000) = .next t) ∧ (inState .idle).run ≠ .running ∧
    (start 0xA0000000).run = .running := ⟨⟨_, rfl⟩, by decide, by decide⟩

/-! Each instruction -/

/-- A valid access at the last index; identifier NSEG, a freed identifier, and the index that is the length. -/
theorem test_witness_SloadReadsOrFaults :
    (let s := withRegs (busy 0x10000053) [(.r2, 1), (.r3, 2)];
      (s.reg .r2).toNat < s.cfg.nseg ∧ s.live (s.reg .r2).toNat = true ∧
        (s.reg .r3).toNat < s.len (s.reg .r2).toNat) ∧
    (let s := withRegs (busy 0x10000053) [(.r2, 8)]; s.cfg.nseg ≤ (s.reg .r2).toNat) ∧
    (let s := withRegs (busy 0x10000053) [(.r2, 2)]; s.live (s.reg .r2).toNat = false) ∧
    (let s := withRegs (busy 0x10000053) [(.r2, 1), (.r3, 3)]; s.len (s.reg .r2).toNat ≤ (s.reg .r3).toNat) := by decide

theorem test_witness_SstoreWritesOrFaults :
    (let s := withRegs (busy 0x20000053) [(.r1, 1), (.r2, 2)];
      (s.reg .r1).toNat < s.cfg.nseg ∧ s.live (s.reg .r1).toNat = true ∧
        (s.reg .r2).toNat < s.len (s.reg .r1).toNat) ∧
    (let s := withRegs (busy 0x20000053) [(.r1, 8)]; s.cfg.nseg ≤ (s.reg .r1).toNat) ∧
    (let s := withRegs (busy 0x20000053) [(.r1, 2)]; s.live (s.reg .r1).toNat = false) ∧
    (let s := withRegs (busy 0x20000053) [(.r1, 1), (.r2, 3)]; s.len (s.reg .r1).toNat ≤ (s.reg .r2).toNat) := by decide

theorem test_witness_DivDividesOrFaults : (withRegs (start 0x50000053) [(.r3, 1)]).reg .r3 ≠ 0 ∧
    (start 0x50000053).reg .r3 = 0 := by decide

/-- An identifier from the pool with SEG_CAP words, and a fresh one. -/
theorem test_witness_MapBindsZeroedSegmentOrFaults :
    (let s := withRegs (busy 0x8000000A) [(.r2, 16)];
      ControllerInv s ∧ s.pool ≠ [] ∧ (s.reg .r2).toNat ≤ s.cfg.segCap) ∧
    (let s := withRegs (start 0x8000000A) [(.r2, 16)];
      ControllerInv s ∧ s.nextFree < s.cfg.nseg ∧ (s.reg .r2).toNat ≤ s.cfg.segCap) :=
  ⟨⟨controllerInv_of_entries _ (by decide), by decide⟩, ⟨controllerInv_of_entries _ (by decide), by decide⟩⟩

/-- No identifier is left; one word too many. -/
theorem test_witness_MapBindsZeroedSegmentOrFaults_faults :
    (let s := withRegs (full 0x8000000A) [(.r2, 1)]; ControllerInv s ∧ s.pool = [] ∧ s.nextFree = s.cfg.nseg) ∧
    (let s := withRegs (start 0x8000000A) [(.r2, 17)]; ControllerInv s ∧ s.cfg.segCap < (s.reg .r2).toNat) :=
  ⟨⟨controllerInv_of_entries _ (by decide), by decide⟩, ⟨controllerInv_of_entries _ (by decide), by decide⟩⟩

theorem test_witness_UnmapRetiresOrFaults :
    let s := withRegs (busy 0x90000001) [(.r1, 1), (.r2, 2), (.r3, 3)];
    ControllerInv s ∧
      ((s.reg .r1).toNat < s.nextFree ∧ s.reg .r1 ≠ 0 ∧ (s.reg .r1).toNat ∉ s.pool) ∧
      s.nextFree ≤ (s.reg .r3).toNat ∧ s.reg .r0 = 0 ∧ (s.reg .r2).toNat ∈ s.pool :=
  ⟨controllerInv_of_entries _ (by decide), by decide⟩

theorem test_witness_OutEmitsByteOrFaults : ((withRegs (start 0xA0000001) [(.r1, 255)]).reg .r1).toNat ≤ 255 ∧
    255 < ((withRegs (start 0xA0000001) [(.r1, 256)]).reg .r1).toNat := by decide

theorem test_witness_InReceivesNextItem :
    (let s := start 0xB0000001 [0x41]; s.inPos < s.inSeq.length ∧ s.inputRequest = some .r1) ∧
    (let s := start 0xB0000001; s.inSeq.length ≤ s.inPos ∧ s.inputRequest = some .r1) := by decide

theorem test_witness_LoadprogInstallsAndJumpsOrFaults :
    (start 0xC000000A).reg .r1 = 0 ∧
    (let s := withRegs (busy 0xC000000A) [(.r1, 1)];
      (s.reg .r1).toNat < s.cfg.nseg ∧ s.live (s.reg .r1).toNat = true ∧ s.reg .r1 ≠ 0) ∧
    (let s := withRegs (busy 0xC000000A) [(.r1, 8)]; s.reg .r1 ≠ 0 ∧ s.cfg.nseg ≤ (s.reg .r1).toNat) ∧
    (let s := withRegs (busy 0xC000000A) [(.r1, 2)]; s.reg .r1 ≠ 0 ∧ s.live (s.reg .r1).toNat = false) := by decide

theorem test_witness_LoadprogJumpsWithinProgram : (withRegs (start 0xC000000A) [(.r2, 5)]).reg .r1 = 0 := by decide

/-- The last index of the new program, and the index that is its length. -/
theorem test_witness_LoadprogReplacesProgram :
    let s := withRegs (busy 0xC000000A) [(.r1, 1), (.r2, 2), (.r3, 3)];
    ControllerInv s ∧ s.reg .r1 ≠ 0 ∧ (s.reg .r1).toNat < s.cfg.nseg ∧ s.live (s.reg .r1).toNat = true ∧
      (s.reg .r2).toNat < s.len (s.reg .r1).toNat ∧ s.len (s.reg .r1).toNat ≤ (s.reg .r3).toNat :=
  ⟨controllerInv_of_entries _ (by decide), by decide⟩

/-! Rules of the whole machine -/

/-- A fault of the instruction, an illegal opcode and a fetch fault. -/
theorem test_witness_FaultsArePrecise : (∃ t, step (start 0x50000053) = .next t ∧ t.run = .faulted) ∧
    (∃ t, step (start 0xE0000000) = .next t ∧ t.run = .faulted) ∧
    ∃ t, step { start 0x70000000 with pc := 2 } = .next t ∧ t.run = .faulted ∧ t.cause = .fetchAddress :=
  ⟨⟨_, rfl, rfl⟩, ⟨_, rfl, rfl⟩, ⟨_, rfl, rfl, rfl⟩⟩

theorem test_witness_InstructionsRaiseOnlyTheirFaults : (start 0x90000001).run = .running ∧
    ∃ t, exec (.unmap .r1) (start 0x90000001) = .next t ∧ t.run = .faulted := ⟨rfl, _, rfl, rfl⟩

theorem test_witness_LastOpRecordsCompletedInstruction : (∃ t, step (start 0x70000000) = .next t ∧ t.run ≠ .faulted) ∧
    ∃ t, step (start 0x50000053) = .next t ∧ t.run = .faulted := ⟨⟨_, rfl, by decide⟩, ⟨_, rfl, rfl⟩⟩

/-- `halt`, `loadprog`, and a word whose pc wraps. -/
theorem test_witness_PcUpdateByOpcode :
    (∃ t, step (start 0x70000000) = .next t ∧ fetch (start 0x70000000) = .ok 0x70000000 ∧ t.run ≠ .faulted) ∧
    (∃ t, step (start 0xC000000A) = .next t ∧ fetch (start 0xC000000A) = .ok 0xC000000A ∧ t.run ≠ .faulted) ∧
    let s := State.placeAtPc { State.reset with pc := 0xFFFFFFFF } 0xD0000048;
    ∃ t, step s = .next t ∧ fetch s = .ok 0xD0000048 ∧ t.run ≠ .faulted :=
  ⟨⟨_, rfl, rfl, by decide⟩, ⟨_, rfl, rfl, by decide⟩, ⟨_, rfl, rfl, by decide⟩⟩

theorem test_witness_RegistersReadAndWritten : let s := start 0x30000053;
    (∀ r, r ∈ readRegs (.add .r1 .r2 .r3) → (s.regs.set .r5 7).get r = s.reg r) ∧ s.regs.set .r5 7 ≠ s.regs ∧
      ∃ t, exec (.add .r1 .r2 .r3) s = .next t := ⟨by decide, by decide, _, rfl⟩

/-- A store to segment 0, and an install of segment 1. -/
theorem test_witness_ProgramChangesOnlyByStoreOrInstall :
    (ControllerInv (start 0x20000000) ∧
      ∃ t, exec (.sstore .r0 .r0 .r0) (start 0x20000000) = .next t ∧ ¬SameSegment (start 0x20000000) t 0) ∧
    (let s := withRegs (busy 0xC000000A) [(.r1, 1)];
      ControllerInv s ∧ ∃ t, exec (.loadprog .r1 .r2) s = .next t ∧ ¬SameSegment s t 0) :=
  ⟨⟨controllerInv_of_entries _ (by decide), _, rfl, fun h => absurd (h.2.2 0) (by decide)⟩,
    ⟨controllerInv_of_entries _ (by decide), _, rfl, fun h => absurd h.2.1 (by decide)⟩⟩

theorem test_witness_LiveLengthsChangeOnlyByInstall : let s := withRegs (busy 0xC000000A) [(.r1, 1)];
    ControllerInv s ∧ ∃ t, exec (.loadprog .r1 .r2) s = .next t ∧ s.live 0 = true ∧ t.len 0 ≠ s.len 0 :=
  ⟨controllerInv_of_entries _ (by decide), _, rfl, by decide⟩

theorem test_witness_OutputGrowsOnlyByOut : (∃ t, step (start 0xA0000001) = .next t ∧ t.run = .running) ∧
    (∃ t, step (withRegs (start 0xA0000001) [(.r1, 256)]) = .next t ∧ t.run = .faulted) ∧
    HostAction.start ≠ .reset := ⟨⟨_, rfl, rfl⟩, ⟨_, rfl, rfl⟩, by decide⟩

theorem test_witness_OnlyInDependsOnInput : (∀ c, Instr.out .r1 ≠ .inp c) ∧
    ∃ t, exec (.out .r1) (start 0xA0000001) = .next t := ⟨fun _ h => Instr.noConfusion h, _, rfl⟩

theorem test_witness_ParametersNeverChange : ∃ t, step (start 0x8000000A) = .next t := ⟨_, rfl⟩

/-- One step of each of the three kinds. -/
theorem test_witness_RunEndsByHaltOrFault : (∃ t, step (start 0xA0000001) = .next t ∧ t.run = .running) ∧
    (∃ t, step (start 0x70000000) = .next t ∧ t.run = .halted) ∧
    ∃ t, step (start 0x50000053) = .next t ∧ t.run = .faulted := ⟨⟨_, rfl, rfl⟩, ⟨_, rfl, rfl⟩, ⟨_, rfl, rfl⟩⟩

/-- ss3. -/
theorem test_witness_StoredWordIsRunNext : let s := withRegs (start 0x20000053) [(.r2, 1), (.r3, 0x70000000)];
    s.run = .running ∧ s.reg .r1 = 0 ∧ s.reg .r2 = s.pc + 1 ∧ 0 < s.cfg.nseg ∧ s.live 0 = true ∧
      (s.reg .r2).toNat < s.len 0 ∧ decode (s.reg .r3) = .ok .halt := by decide

/-- W3: identifiers 1 and 2 are freed in that order. -/
theorem test_witness_ReuseIsLastFreedFirst :
    let s := withRegs (mapped (mapped (start 0x90000001) 1) 1) [(.r1, 1), (.r2, 2), (.r3, 1)];
    ∃ s₁ s₂ s₃ s₄, s.run = .running ∧ exec (.unmap .r1) s = .next s₁ ∧ s₁.run = .running ∧
      exec (.unmap .r2) s₁ = .next s₂ ∧ s₂.run = .running ∧ exec (.map .r4 .r3) s₂ = .next s₃ ∧ s₃.run = .running ∧
      exec (.map .r5 .r3) s₃ = .next s₄ ∧ s₄.run = .running :=
  ⟨_, _, _, _, rfl, rfl, rfl, rfl, rfl, rfl, rfl, rfl, rfl⟩

/-- A pooled identifier, and a fresh one. -/
theorem test_witness_ZeroLengthSegmentFaultsEveryAccess :
    (ControllerInv (busy 0x8000000A) ∧ (busy 0x8000000A).reg .r2 = 0 ∧ (busy 0x8000000A).pool ≠ []) ∧
    (ControllerInv (start 0x8000000A) ∧ (start 0x8000000A).reg .r2 = 0 ∧
      (start 0x8000000A).nextFree < (start 0x8000000A).cfg.nseg) :=
  ⟨⟨controllerInv_of_entries _ (by decide), by decide⟩, ⟨controllerInv_of_entries _ (by decide), by decide⟩⟩

theorem test_witness_ZeroWordOnlyAdvances : (start 0).run = .running ∧ fetch (start 0) = .ok 0 := by decide

/-! Invariants -/

/-- A running unit, and a unit inside an `in` wait, have the invariant. -/
theorem test_witness_HostKeepsInvariant : (busy 0xB0000001).Inv ∧ (start 0xB0000001).enterWait.Inv :=
  ⟨⟨controllerInv_of_entries _ (by decide), by constructor <;> decide⟩,
    ⟨controllerInv_of_entries _ (by decide), by constructor <;> decide⟩⟩

theorem test_witness_StepKeepsInvariant : (busy 0xB0000001).Inv ∧ ∃ t, step (busy 0xB0000001) = .next t :=
  ⟨test_witness_HostKeepsInvariant.1, _, rfl⟩

/-- A unit after a program load, START and one step of a `map`. -/
theorem test_witness_ReachableControllerInvariants : ∃ s t, Reachable s ∧ step s = .next t ∧ Reachable t ∧ t.nextFree = 2 :=
  have h := Reachable.host .start (.host (.load 0x80000008) (.reset cfgK [] (by decide)))
  ⟨_, _, h, rfl, .step h rfl, rfl⟩

theorem test_witness_StepKeepsMemoryCanonical : Memory.wf (busy 0x8000000A).mem = true ∧
    ∃ t, step (busy 0x8000000A) = .next t := ⟨by decide, _, rfl⟩

/-- Two states that differ in a freed slot's words and length. -/
theorem test_witness_UnspecifiedWordsAreNeverObserved :
    let s := busy 0x8000000A;
    let t := s.setSlot 2 ⟨false, 5, [(0, 0x99)]⟩;
    s.live 0 = true ∧ ObsEq s t ∧ s ≠ t ∧ ∃ s', step s = .next s' := by
  refine ⟨by decide, ⟨rfl, fun id => ?_⟩, by decide, _, rfl⟩
  by_cases h : id = 2
  · subst h; exact ⟨by decide, fun h => absurd h (by decide)⟩
  · rw [live_setSlot, len_setSlot, if_neg h, if_neg h]
    exact ⟨rfl, fun _ => ⟨rfl, fun i _ => by rw [word_setSlot, if_neg h]⟩⟩

/-- The same states in IDLE, where a step is a fault. -/
theorem test_witness_UnspecifiedWordsAreNeverObserved_fault :
    let s : State := { busy 0x8000000A with run := .idle };
    s.live 0 = true ∧ ObsEq s s ∧ step s = .fault .notStarted :=
  ⟨by decide, ⟨rfl, fun _ => ⟨rfl, fun _ => ⟨rfl, fun _ _ => rfl⟩⟩⟩, rfl⟩

end Sys2Proof.Tests
end

/-! PROOFS. The scope statements: the bit-field extractor and inserter (R12), and the instructions' independence of the
input sequence (R9, R106). -/

namespace Sys2Proof

/-! ### The parts of a word around a field -/

/-- The word after an insertion, as its low part below two nested multiples: each part comes out by one division. -/
theorem toNat_insertUnsigned_nested {width lsb : Nat} (hl : width + lsb ≤ 32) (w : Word) (v : BitVec width) :
    (insertUnsigned w width lsb v).toNat =
      w.toNat % 2 ^ lsb + 2 ^ lsb * (v.toNat + 2 ^ width * (w.toNat / 2 ^ (lsb + width))) := by
  rw [toNat_insertUnsigned w width lsb v hl, Nat.pow_add]
  ring

/-- Below the field an insertion keeps the word. -/
theorem insertUnsigned_mod {width lsb : Nat} (hl : width + lsb ≤ 32) (w : Word) (v : BitVec width) :
    (insertUnsigned w width lsb v).toNat % 2 ^ lsb = w.toNat % 2 ^ lsb := by
  rw [toNat_insertUnsigned_nested hl, Nat.add_mul_mod_self_left, Nat.mod_mod]

/-- From the field up an inserted word is the new value below the word's old high part. -/
theorem insertUnsigned_div {width lsb : Nat} (hl : width + lsb ≤ 32) (w : Word) (v : BitVec width) :
    (insertUnsigned w width lsb v).toNat / 2 ^ lsb = v.toNat + 2 ^ width * (w.toNat / 2 ^ (lsb + width)) := by
  rw [toNat_insertUnsigned_nested hl, Nat.add_mul_div_left _ _ (Nat.two_pow_pos lsb),
    Nat.div_eq_of_lt (Nat.mod_lt _ (Nat.two_pow_pos lsb)), Nat.zero_add]

/-- Above the field an insertion keeps the word. -/
theorem insertUnsigned_div_high {width lsb : Nat} (hl : width + lsb ≤ 32) (w : Word) (v : BitVec width) :
    (insertUnsigned w width lsb v).toNat / 2 ^ (lsb + width) = w.toNat / 2 ^ (lsb + width) := by
  rw [Nat.pow_add, ← Nat.div_div_eq_div_mul, insertUnsigned_div hl, Nat.add_mul_div_left _ _ (Nat.two_pow_pos width),
    Nat.div_eq_of_lt v.isLt, Nat.zero_add, Nat.pow_add]

/-- A field comes back out as it was inserted. -/
theorem extractUnsigned_insertUnsigned {width lsb : Nat} (hl : width + lsb ≤ 32) (w : Word) (v : BitVec width) :
    extractUnsigned (insertUnsigned w width lsb v) width lsb = v := by
  apply BitVec.eq_of_toNat_eq
  rw [toNat_extractUnsigned, insertUnsigned_div hl, Nat.add_mul_mod_self_left, Nat.mod_eq_of_lt v.isLt]

/-- Writing back the field a word holds gives the word. -/
theorem insertUnsigned_extractUnsigned {width lsb : Nat} (hl : width + lsb ≤ 32) (w : Word) :
    insertUnsigned w width lsb (extractUnsigned w width lsb) = w := by
  apply BitVec.eq_of_toNat_eq
  rw [toNat_insertUnsigned_nested hl, toNat_extractUnsigned, Nat.pow_add, ← Nat.div_div_eq_div_mul, Nat.mod_add_div,
    Nat.mod_add_div]

/-- The value R12 gives for an insertion: it does not wrap, because the old field is part of the word. -/
theorem toNat_insertUnsigned_eq_sub_add {width lsb : Nat} (hl : width + lsb ≤ 32) (w : Word) (v : BitVec width) :
    (insertUnsigned w width lsb v).toNat =
      w.toNat - (extractUnsigned w width lsb).toNat * 2 ^ lsb + v.toNat * 2 ^ lsb := by
  have hold := toNat_insertUnsigned w width lsb (extractUnsigned w width lsb) hl
  rw [insertUnsigned_extractUnsigned hl] at hold
  rw [toNat_insertUnsigned w width lsb v hl]
  omega

/-- An insertion keeps every bit outside the field. -/
theorem getLsbD_insertUnsigned_outside {width lsb k : Nat} (hl : width + lsb ≤ 32) (hk : k < lsb ∨ lsb + width ≤ k)
    (w : Word) (v : BitVec width) : (insertUnsigned w width lsb v).getLsbD k = w.getLsbD k := by
  simp only [BitVec.getLsbD]
  rcases hk with hlow | hhigh
  · have hbit := congrArg (Nat.testBit · k) (insertUnsigned_mod hl w v)
    simpa [Nat.testBit_mod_two_pow, hlow] using hbit
  · have hbit := congrArg (Nat.testBit · (k - (lsb + width))) (insertUnsigned_div_high hl w v)
    simpa [Nat.testBit_div_two_pow, Nat.sub_add_cancel hhigh] using hbit

/-- Settles O6, from the three parts of an inserted word: below the field, the field, above it. -/
theorem insertThenExtract : Obligations.InsertThenExtract :=
  fun w width lsb v hl => ⟨toNat_extractUnsigned w width lsb, toNat_insertUnsigned_eq_sub_add hl w v,
    extractUnsigned_insertUnsigned hl w v, fun _ hk => getLsbD_insertUnsigned_outside hl hk w v⟩

end Sys2Proof

namespace Sys2Proof.Machine

/-! ### Another input sequence and position -/

/-- The state with another input sequence and another position in it, all else the same. -/
def State.withInput (q : List Byte) (n : Nat) (s : State) : State := { s with inSeq := q, inPos := n }

/-- An outcome with its next state changed. -/
def mapNext (f : State → State) : Host.Outcome State Fault Refusal → Host.Outcome State Fault Refusal
  | .next s => .next (f s)
  | .fault r => .fault r
  | .refused r => .refused r

section
variable (q : List Byte) (n : Nat) (s : State)

@[simp] theorem withInput_inPos : (s.withInput q n).inPos = n := rfl
@[simp] theorem withInput_reg (r : Reg) : (s.withInput q n).reg r = s.reg r := rfl

/-! The shared operations do not look at the input, and pass it on. -/

theorem memRead_withInput (id idx : Word) : memRead (s.withInput q n) id idx = memRead s id idx := rfl

theorem memWrite_withInput (id idx v : Word) :
    memWrite (s.withInput q n) id idx v = (memWrite s id idx v).map (State.withInput q n) := by
  simp only [memWrite, apply_ite (Except.map (State.withInput q n))]
  rfl

theorem mapSegment_withInput (len : Nat) :
    mapSegment (s.withInput q n) len = (mapSegment s len).map (Prod.map id (State.withInput q n)) := by
  have htarget : (s.withInput q n).mapTarget = s.mapTarget := rfl
  simp only [mapSegment, htarget]
  cases s.mapTarget with
  | none => rfl
  | some seg =>
    simp only [apply_ite (Except.map (Prod.map id (State.withInput q n)))]
    rfl

theorem unmapSegment_withInput (id : Nat) :
    unmapSegment (s.withInput q n) id = (unmapSegment s id).map (State.withInput q n) := by
  simp only [unmapSegment, apply_ite (Except.map (State.withInput q n))]
  rfl

theorem installSegment_withInput (id : Nat) :
    installSegment (s.withInput q n) id = (installSegment s id).map (State.withInput q n) := by
  simp only [installSegment, apply_ite (Except.map (State.withInput q n))]
  rfl

end

/-- Every instruction but `in` does the same with another input and passes it on (R106). -/
theorem exec_withInput {i : Instr} (hi : ∀ c, i ≠ .inp c) (q : List Byte) (n : Nat) (s : State) :
    exec i (s.withInput q n) = mapNext (State.withInput q n) (exec i s) := by
  cases i with
  | inp c => exact absurd rfl (hi c)
  | cmov a b c =>
    by_cases hc : s.reg c = 0 <;> simp only [exec, execCmov, withInput_reg, hc, if_true, if_false] <;> rfl
  | sload a b c =>
    simp only [exec, execSload, withInput_reg, memRead_withInput]
    cases memRead s (s.reg b) (s.reg c) <;> rfl
  | sstore a b c =>
    simp only [exec, execSstore, withInput_reg, memWrite_withInput]
    cases memWrite s (s.reg a) (s.reg b) (s.reg c) <;> rfl
  | div a b c =>
    simp only [exec, execDiv, withInput_reg]
    cases quotientWord (s.reg b) (s.reg c) <;> rfl
  | map b c =>
    simp only [exec, execMap, withInput_reg, mapSegment_withInput]
    cases mapSegment s (s.reg c).toNat <;> rfl
  | unmap c =>
    simp only [exec, execUnmap, withInput_reg, unmapSegment_withInput]
    cases unmapSegment s (s.reg c).toNat <;> rfl
  | out c =>
    simp only [exec, execOut, withInput_reg]
    cases outByte (s.reg c) <;> rfl
  | loadprog b c =>
    simp only [exec, execLoadprog, withInput_reg, installSegment_withInput]
    cases installSegment s (s.reg b).toNat <;> rfl
  | add | mul | nand | halt | li => rfl

/-- The next state of an instruction but `in`, with another input. -/
theorem exec_withInput_next {i : Instr} {s t : State} (hi : ∀ c, i ≠ .inp c) (h : exec i s = .next t) (q : List Byte)
    (n : Nat) : exec i (s.withInput q n) = .next (t.withInput q n) := by
  rw [exec_withInput hi, h]
  rfl

/-- An instruction but `in` keeps the input position: given its own state's input again, it answers the same state. -/
theorem exec_inPos {i : Instr} {s t : State} (hi : ∀ c, i ≠ .inp c) (h : exec i s = .next t) : t.inPos = s.inPos := by
  have hsame : exec i s = .next (t.withInput s.inSeq s.inPos) := exec_withInput_next hi h s.inSeq s.inPos
  rw [h] at hsame
  injection hsame with ht
  rw [ht, withInput_inPos]

/-- Settles O46: the change of input passes through every instruction but `in`, which leaves the position alone. -/
theorem onlyInDependsOnInput : Obligations.OnlyInDependsOnInput :=
  fun _ _ _ q n hi h => ⟨exec_inPos hi h, exec_withInput_next hi h q n⟩

end Sys2Proof.Machine

/-! PROOFS. The state statements: the invariant of the unit, kept by every step and every transaction of the host. -/

namespace Sys2Proof.Machine

/-! ### The invariant of the controller in two parts -/

/-- What a slot with room for `cap` words may hold (R29, R30): its words in canonical form, no length above the capacity
and no word past it. -/
structure Slot.Fits (cap : Nat) (x : Slot) : Prop where
  wf : x.wf
  len_le : x.len ≤ cap
  words_in : ∀ i, cap ≤ i → x.word i = 0

theorem Slot.Fits.setWord {cap i : Nat} {x : Slot} (h : x.Fits cap) (hi : i < cap) (v : Word) :
    (x.setWord i v).Fits cap := by
  refine ⟨Slot.setWord_wf x i v h.wf, h.len_le, fun j hj => ?_⟩
  rw [Slot.word_setWord, if_neg (by omega), h.words_in j hj]

theorem Slot.Fits.mapped {cap n : Nat} {x : Slot} (h : x.Fits cap) (hn : n ≤ cap) : (x.mapped n).Fits cap := by
  refine ⟨Slot.mapped_wf x n h.wf, hn, fun j hj => ?_⟩
  rw [Slot.word_mapped, h.words_in j hj, ite_self]

theorem Slot.Fits.installed {cap cap' : Nat} {dst src : Slot} (hd : dst.Fits cap) (hs : src.Fits cap')
    (hc : cap' ≤ cap) : (dst.installed src).Fits cap := by
  refine ⟨Slot.installed_wf dst src hd.wf hs.wf, hs.len_le.trans hc, fun j hj => ?_⟩
  rw [Slot.word_installed, hs.words_in j (hc.trans hj), hd.words_in j hj, ite_self]

/-- The storage half of the controller's invariant: memory is canonical and every slot holds what it has room for. -/
structure StorageInv (s : State) : Prop where
  mem_wf : Memory.wf s.mem = true
  fits : ∀ id, (s.slot id).Fits (capacity s.cfg id)

theorem StorageInv.setSlot {s : State} (h : StorageInv s) {id : Nat} {x : Slot} (hx : x.Fits (capacity s.cfg id)) :
    StorageInv (s.setSlot id x) := by
  refine ⟨setSlot_wf s id x h.mem_wf hx.wf, fun j => ?_⟩
  rw [slot_setSlot]
  split
  · next hj => rw [hj]; exact hx
  · exact h.fits j

/-- The identifier half of the controller's invariant: the live identifiers are those issued and not pooled, and the
pool lists issued identifiers other than 0, none twice (I1 to I4). -/
structure IssueInv (s : State) : Prop where
  next_pos : 1 ≤ s.nextFree
  next_le : s.nextFree ≤ s.cfg.nseg
  live_iff : ∀ id, s.live id = true ↔ id < s.nextFree ∧ id ∉ s.pool
  pool_issued : ∀ id ∈ s.pool, id ≠ 0 ∧ id < s.nextFree
  pool_nodup : s.pool.Nodup

theorem ControllerInv.storage {s : State} (h : ControllerInv s) : StorageInv s :=
  ⟨h.mem_wf, fun id => ⟨slot_wf s id h.mem_wf, h.len_le id, h.words_in id⟩⟩

theorem ControllerInv.issue {s : State} (h : ControllerInv s) : IssueInv s := by
  have hissued : ∀ id, id ∈ s.pool → id < s.nextFree := fun id hp => by
    by_contra hn
    exact (h.fresh id (by omega)).2 hp
  refine ⟨h.next_pos, h.next_le, fun id => ?_, fun id hp => ⟨fun h0 => h.pool_pos (h0 ▸ hp), hissued id hp⟩,
    h.pool_nodup⟩
  by_cases hn : id < s.nextFree
  · simp [hn, h.issued id hn]
  · simp [hn, (h.fresh id (by omega)).1]

/-- The two halves make the controller's invariant. -/
theorem controllerInv_of_halves {s : State} (hc : s.cfg.wellFormed = true) (hs : StorageInv s) (hi : IssueInv s) :
    ControllerInv s where
  cfg_wf := hc
  mem_wf := hs.mem_wf
  live_zero := (hi.live_iff 0).2 ⟨hi.next_pos, fun hp => (hi.pool_issued 0 hp).1 rfl⟩
  next_pos := hi.next_pos
  next_le := hi.next_le
  issued id hn := by simp [hi.live_iff, hn]
  pool_nodup := hi.pool_nodup
  fresh id hn := by
    have hp : id ∉ s.pool := fun hp => absurd (hi.pool_issued id hp).2 (by omega)
    exact ⟨by simp [Bool.eq_false_iff, hi.live_iff, hn], hp⟩
  pool_pos hp := (hi.pool_issued 0 hp).1 rfl
  len_le id := (hs.fits id).len_le
  words_in id := (hs.fits id).words_in

/-- The controller's invariant speaks of the parameters, memory, `next_free` and the pool alone. -/
theorem ControllerInv.congr {s t : State} (h : ControllerInv s) (hc : t.cfg = s.cfg) (hm : t.mem = s.mem)
    (hn : t.nextFree = s.nextFree) (hp : t.pool = s.pool) : ControllerInv t := by
  cases s
  cases t
  cases hc
  cases hm
  cases hn
  cases hp
  exact ⟨h.cfg_wf, h.mem_wf, h.live_zero, h.next_pos, h.next_le, h.issued, h.pool_nodup, h.fresh, h.pool_pos, h.len_le,
    h.words_in⟩

/-- The capacity of any slot is at most that of slot 0 (R8). -/
theorem ControllerInv.capacity_le {s : State} (h : ControllerInv s) (id : Nat) :
    capacity s.cfg id ≤ capacity s.cfg 0 := by
  have hc := h.cfg_wf
  simp only [Config.wellFormed, Bool.and_eq_true, decide_eq_true_eq] at hc
  unfold capacity
  split <;> simp [hc.2]

/-! ### The operations of the controller keep it -/

/-- Replacing a slot by one with the same live bit that the slot has room for. -/
theorem ControllerInv.setSlot {s : State} (h : ControllerInv s) {id : Nat} {x : Slot} (hl : x.live = s.live id)
    (hx : x.Fits (capacity s.cfg id)) : ControllerInv (s.setSlot id x) := by
  refine controllerInv_of_halves h.cfg_wf (h.storage.setSlot hx) ?_
  have hi := h.issue
  refine ⟨hi.next_pos, hi.next_le, fun j => ?_, hi.pool_issued, hi.pool_nodup⟩
  have hlive : (s.setSlot id x).live j = s.live j := by
    rw [live_setSlot, hl]
    split
    · next hj => rw [hj]
    · rfl
  rw [hlive]
  exact hi.live_iff j

theorem ControllerInv.setWord {s : State} (h : ControllerInv s) {id i : Nat} (hi : i < capacity s.cfg id) (v : Word) :
    ControllerInv (s.setWord id i v) :=
  h.setSlot rfl ((h.storage.fits id).setWord hi v)

theorem ControllerInv.install {s : State} (h : ControllerInv s) (id : Nat) :
    ControllerInv (s.setSlot 0 ((s.slot 0).installed (s.slot id))) :=
  h.setSlot rfl ((h.storage.fits 0).installed (h.storage.fits id) (h.capacity_le id))

/-- The slots live after `Map`: those that were, and the one bound. -/
theorem live_afterMap (s : State) (id n j : Nat) : (s.afterMap id n).live j = true ↔ j = id ∨ s.live j = true := by
  unfold State.live
  rw [slot_afterMap]
  by_cases hj : j = id <;> simp [hj, Slot.mapped]

/-- The slots live after `Unmap`: those that were, but the one retired. -/
theorem live_afterUnmap (s : State) (id j : Nat) : (s.afterUnmap id).live j = true ↔ j ≠ id ∧ s.live j = true := by
  unfold State.live
  rw [slot_afterUnmap]
  by_cases hj : j = id <;> simp [hj]

/-- `Map` from the pool takes its top. -/
theorem afterMap_of_pool {s : State} {id : Nat} {rest : List Nat} (hp : s.pool = id :: rest) (n : Nat) :
    (s.afterMap id n).nextFree = s.nextFree ∧ (s.afterMap id n).pool = rest := by
  simp [State.afterMap, hp]

/-- `Map` with an empty pool issues an identifier. -/
theorem afterMap_of_empty_pool {s : State} (hp : s.pool = []) (id n : Nat) :
    (s.afterMap id n).nextFree = s.nextFree + 1 ∧ (s.afterMap id n).pool = [] := by
  simp [State.afterMap, hp]

/-- An identifier that leaves the pool becomes live. -/
theorem IssueInv.afterMap_pool {s : State} (h : IssueInv s) {id : Nat} {rest : List Nat} (hp : s.pool = id :: rest)
    (n : Nat) : IssueInv (s.afterMap id n) := by
  obtain ⟨hnext, hpool⟩ := afterMap_of_pool hp n
  obtain ⟨hpos, hle, hlive, hiss, hnd⟩ := h
  rw [hp] at hlive hiss hnd
  obtain ⟨hnew, hrest⟩ := List.nodup_cons.1 hnd
  constructor
  case next_pos => rw [hnext]; exact hpos
  case next_le => rw [hnext]; exact hle
  case live_iff =>
    intro j
    rw [live_afterMap, hlive, hnext, hpool]
    by_cases hj : j = id
    · simp [hj, hnew, hiss id]
    · simp [hj]
  case pool_issued => rw [hnext, hpool]; exact fun j hj => hiss j (List.mem_cons_of_mem _ hj)
  case pool_nodup => rw [hpool]; exact hrest

/-- With an empty pool the first identifier not issued is issued and becomes live. -/
theorem IssueInv.afterMap_fresh {s : State} (h : IssueInv s) (hp : s.pool = []) (hlt : s.nextFree < s.cfg.nseg)
    (n : Nat) : IssueInv (s.afterMap s.nextFree n) := by
  obtain ⟨hnext, hpool⟩ := afterMap_of_empty_pool hp s.nextFree n
  constructor
  case next_pos => rw [hnext]; exact Nat.le_add_left 1 _
  case next_le => rw [hnext]; exact hlt
  case live_iff =>
    intro j
    rw [live_afterMap, h.live_iff, hp, hnext, hpool]
    simp only [List.not_mem_nil, not_false_eq_true, and_true]
    omega
  case pool_issued => simp [hpool]
  case pool_nodup => simp [hpool]

/-- A live identifier other than 0 that enters the pool is no longer live. -/
theorem IssueInv.afterUnmap {s : State} (h : IssueInv s) {id : Nat} (h0 : id ≠ 0) (hl : s.live id = true) :
    IssueInv (s.afterUnmap id) := by
  obtain ⟨hissued, hnew⟩ := (h.live_iff id).1 hl
  refine ⟨h.next_pos, h.next_le, fun j => ?_, ?_, ?_⟩
  · rw [live_afterUnmap, h.live_iff, afterUnmap_nextFree, afterUnmap_pool, List.mem_cons]
    tauto
  · simpa [h0, hissued] using h.pool_issued
  · simpa [hnew] using h.pool_nodup

/-- `Map` binds an identifier of the pool, which leaves it, or the first one not issued. -/
theorem ControllerInv.afterMap {s : State} (h : ControllerInv s) {id n : Nat} (ht : s.mapTarget = some id)
    (hn : n ≤ capacity s.cfg id) : ControllerInv (s.afterMap id n) := by
  have hst := h.storage.setSlot ((h.storage.fits id).mapped hn)
  refine controllerInv_of_halves h.cfg_wf ⟨hst.mem_wf, hst.fits⟩ ?_
  rcases (mapTarget_eq_some s id).1 ht with ⟨rest, hp⟩ | ⟨hp, hlt, rfl⟩
  · exact h.issue.afterMap_pool hp n
  · exact h.issue.afterMap_fresh hp hlt n

/-- `Unmap` moves a live identifier other than 0 to the pool; its slot holds what it held. -/
theorem ControllerInv.afterUnmap {s : State} (h : ControllerInv s) {id : Nat} (h0 : id ≠ 0) (hl : s.live id = true) :
    ControllerInv (s.afterUnmap id) := by
  have hfit := h.storage.fits id
  have hst := h.storage.setSlot (id := id) (x := { s.slot id with live := false }) ⟨hfit.wf, hfit.len_le, hfit.words_in⟩
  exact controllerInv_of_halves h.cfg_wf ⟨hst.mem_wf, hst.fits⟩ (h.issue.afterUnmap h0 hl)

/-! ### Instructions and steps keep the invariant -/

/-- An instruction keeps the parameters and the input sequence. -/
theorem exec_parameters {i : Instr} {s t : State} (h : exec i s = .next t) : t.cfg = s.cfg ∧ t.inSeq = s.inSeq := by
  rcases exec_cases i s with ⟨u, hu, hc⟩ | ⟨c, -, hf⟩
  · cases h.symm.trans hu
    exact ⟨hc.cfg, hc.inSeq⟩
  · cases h.symm.trans hf
    exact ⟨rfl, rfl⟩

/-- A valid access is to an index the slot has room for. -/
theorem ControllerInv.index_lt {s : State} (h : ControllerInv s) {id idx : Word} (hv : s.validAccess id idx = true) :
    idx.toNat < capacity s.cfg id.toNat :=
  ((validAccess_iff s id idx).1 hv).2.2.trans_le (h.len_le _)

theorem ControllerInv.exec {i : Instr} {s t : State} (h : ControllerInv s) (he : exec i s = .next t) :
    ControllerInv t := by
  have hc := (exec_parameters he).1
  rcases exec_memory_cases he with ⟨hm, hn, hp⟩ | ⟨a, b, c, -, hv, hm, hn, hp⟩ | ⟨b, c, id, -, ht, hle, hm, hn, hp⟩ |
    ⟨c, -, -, h0, hl, hm, hn, hp⟩ | ⟨b, c, -, -, -, hm, hn, hp⟩
  · exact h.congr hc hm hn hp
  · exact (h.setWord (h.index_lt hv) (s.reg c)).congr hc hm hn hp
  · exact (h.afterMap ht hle).congr hc hm hn hp
  · exact (h.afterUnmap h0 hl).congr hc hm hn hp
  · exact (h.install (s.reg b).toNat).congr hc hm hn hp

/-- A fault that an instruction takes in a running unit is one of those listed for it (R115). -/
theorem exec_fault_cause {i : Instr} {s t : State} (hr : s.run = .running) (h : exec i s = .next t)
    (hf : t.run = .faulted) : t.cause ∈ raisableCauses i := by
  have hcompleted : ∀ {u : State}, exec i s = .next u → u.run ≠ .faulted → t.cause ∈ raisableCauses i :=
    fun hu hn => by cases h.symm.trans hu; exact absurd hf hn
  have hfaulted : ∀ {c : Cause}, exec i s = .next (raiseFault c s) → c ∈ raisableCauses i →
      t.cause ∈ raisableCauses i :=
    fun hu hm => by cases h.symm.trans hu; exact hm
  have hrun : s.run ≠ .faulted := by simp [hr]
  cases i with
  | cmov a b c => exact hcompleted rfl (by split <;> exact hrun)
  | add | mul | nand | inp | li => exact hcompleted rfl hrun
  | halt => exact hcompleted rfl (by simp)
  | sload a b c =>
    rcases exec_sload_cases a b c s with ⟨-, e⟩ | ⟨-, e⟩
    · exact hcompleted e hrun
    · exact hfaulted e (by simp [raisableCauses])
  | sstore a b c =>
    rcases exec_sstore_cases a b c s with ⟨-, e⟩ | ⟨-, e⟩
    · exact hcompleted e hrun
    · exact hfaulted e (by simp [raisableCauses])
  | div a b c =>
    rcases exec_div_cases a b c s with ⟨-, e⟩ | ⟨-, e⟩
    · exact hcompleted e hrun
    · exact hfaulted e (by simp [raisableCauses])
  | map b c =>
    rcases exec_map_cases b c s with ⟨id, -, -, e⟩ | ⟨-, e⟩
    · exact hcompleted e hrun
    · exact hfaulted e (by simp [raisableCauses])
  | unmap c =>
    rcases exec_unmap_cases c s with ⟨-, -, -, e⟩ | ⟨-, e⟩ | ⟨-, -, e⟩ | ⟨-, -, -, e⟩
    · exact hcompleted e hrun
    all_goals exact hfaulted e (by simp [raisableCauses])
  | out c =>
    rcases exec_out_cases c s with ⟨-, e⟩ | ⟨-, e⟩
    · exact hcompleted e hrun
    · exact hfaulted e (by simp [raisableCauses])
  | loadprog b c =>
    rcases exec_loadprog_cases b c s with ⟨-, e⟩ | ⟨-, -, -, e⟩ | ⟨-, -, e⟩
    · exact hcompleted e hrun
    · exact hcompleted e hrun
    · exact hfaulted e (by simp [raisableCauses])

/-- No instruction raises the fetch fault, nor the reserved REGISTER_INDEX. -/
theorem not_mem_raisableCauses (i : Instr) : .fetchAddress ∉ raisableCauses i ∧ .registerIndex ∉ raisableCauses i := by
  cases i <;> simp [raisableCauses]

/-- Trap entry keeps the status relations, for a cause that has a name, and a fetch fault records 0. -/
theorem StatusInv.trapEntry {s : State} (h : StatusInv s) {c : Cause} {w : Word} (h0 : c ≠ .none)
    (hr : c ≠ .registerIndex) (hw : c = .fetchAddress → w = 0) : StatusInv (trapEntry c w s) where
  cause_none := by simp [h0]
  cause_named := hr
  word_zero hn := absurd rfl hn
  fetch_word_zero := hw
  wait_at_in hn := by simp at hn
  last_op_le := h.last_op_le
  last_op_zero := h.last_op_zero
  halted_by_halt hn := by simp at hn

theorem opcode_le (i : Instr) : i.opcode.toNat ≤ 13 := by cases i <;> simp [Instr.opcode]

/-- A completed instruction of a running unit that ends outside a wait keeps the status relations. -/
theorem Completes.statusInv {i : Instr} {s t : State} (hc : Completes i s t) (h : StatusInv s) (hr : s.run = .running)
    (hw : t.inWait = false) : StatusInv t := by
  have hcause : t.cause = .none := hc.cause.trans (h.cause_none.2 (by simp [hr]))
  have hrun : t.run ≠ .faulted := by rw [hc.run]; split <;> simp [hr]
  have hhalt : t.run = .halted → i = .halt := by rw [hc.run]; split <;> simp [*]
  constructor
  case cause_none => simp [hcause, hrun]
  case cause_named => simp [hcause]
  case word_zero => exact fun _ => hc.faultWord.trans (h.word_zero (by simp [hr]))
  case fetch_word_zero => simp [hcause]
  case wait_at_in => simp [hw]
  case last_op_le => rw [hc.lastOp]; exact opcode_le i
  case last_op_zero => simp [hc.lastValid]
  case halted_by_halt => exact fun hh => ⟨by rw [hc.lastOp, hhalt hh]; rfl, hc.lastValid⟩

/-- No instruction ends in a wait, if only an `in` begins in one. -/
theorem exec_inWait {i : Instr} {s t : State} (hw : s.inWait = true → ∃ c, i = .inp c) (h : exec i s = .next t) :
    t.inWait = false := by
  by_cases hin : ∃ c, i = .inp c
  · obtain ⟨c, rfl⟩ := hin
    cases h
    rfl
  · rcases exec_cases i s with ⟨u, hu, hc⟩ | ⟨c, -, hf⟩
    · cases h.symm.trans hu
      rcases hc.inWait with hsame | ⟨hoff, -⟩
      · rw [hsame, Bool.eq_false_iff]; exact fun hs => hin (hw hs)
      · exact hoff
    · cases h.symm.trans hf
      rfl

/-- An instruction of a running unit keeps the status relations: it completes, or takes one of its own faults. -/
theorem StatusInv.exec {i : Instr} {s t : State} (h : StatusInv s) (hr : s.run = .running)
    (hw : s.inWait = true → ∃ c, i = .inp c) (he : exec i s = .next t) : StatusInv t := by
  rcases exec_cases i s with ⟨u, hu, hc⟩ | ⟨c, h0, hf⟩
  · cases he.symm.trans hu
    exact hc.statusInv h hr (exec_inWait hw he)
  · have hmem : c ∈ raisableCauses i := exec_fault_cause hr hf rfl
    obtain ⟨hfetch, hreg⟩ := not_mem_raisableCauses i
    cases he.symm.trans hf
    exact h.trapEntry h0 (fun e => hreg (e ▸ hmem)) fun e => absurd (e ▸ hmem) hfetch

/-- While the unit waits, the instruction it fetches is an `in` (R38). -/
theorem StatusInv.waits_at_in {s : State} (h : StatusInv s) {w : Word} {i : Instr} (hf : fetch s = .ok w)
    (hd : decode w = .ok i) (hw : s.inWait = true) : ∃ c, i = .inp c := by
  obtain ⟨c, hc⟩ := Option.isSome_iff_exists.1 (h.wait_at_in hw)
  obtain ⟨-, w', hf', hd'⟩ := inputRequest_eq_some hc
  cases hf.symm.trans hf'
  cases hd.symm.trans hd'
  exact ⟨c, rfl⟩

/-- Settles O54, by the three things a step can be: a fetch fault, an illegal opcode, an instruction. -/
theorem stepKeepsInvariant : Obligations.StepKeepsInvariant := by
  rintro s t ⟨hctl, hst⟩ h
  obtain ⟨hr, ⟨-, rfl⟩ | ⟨w, -, -, rfl⟩ | ⟨w, i, hf, hd, -, he⟩⟩ := step_cases h
  · exact ⟨hctl.congr rfl rfl rfl rfl, hst.trapEntry (by decide) (by decide) fun _ => rfl⟩
  · exact ⟨hctl.congr rfl rfl rfl rfl, hst.trapEntry (by decide) (by decide) fun h => by cases h⟩
  · exact ⟨hctl.exec he, hst.exec hr (hst.waits_at_in hf hd) he⟩

/-- Settles O57: a fault leaves memory alone, and an instruction does one of the operations that keep it canonical. -/
theorem stepKeepsMemoryCanonical : Obligations.StepKeepsMemoryCanonical := by
  intro s t hwf h
  obtain ⟨-, ⟨-, rfl⟩ | ⟨w, -, -, rfl⟩ | ⟨w, i, -, -, -, he⟩⟩ := step_cases h
  · exact hwf
  · exact hwf
  · rcases exec_memory_cases he with ⟨hm, -⟩ | ⟨_, _, _, -, -, hm, -⟩ | ⟨_, _, _, -, -, -, hm, -⟩ |
      ⟨_, -, -, -, -, hm, -⟩ | ⟨_, _, -, -, -, hm, -⟩ <;> rw [hm]
    · exact hwf
    · exact setWord_wf _ _ _ _ hwf
    · exact afterMap_wf _ _ _ hwf
    · exact afterUnmap_wf _ _ hwf
    · exact setSlot_wf _ _ _ hwf (Slot.installed_wf _ _ (slot_wf _ _ hwf) (slot_wf _ _ hwf))

/-! ### What a program can observe of a slot -/

/-- Two slots that agree on all a program can observe: the live bit, and of a live slot the length and the words below
it (R34, R44). -/
def Slot.ObsEq (x y : Slot) : Prop :=
  y.live = x.live ∧ (x.live = true → y.len = x.len ∧ ∀ i, i < x.len → y.word i = x.word i)

theorem Slot.ObsEq.setWord {x y : Slot} (h : x.ObsEq y) (i : Nat) (v : Word) :
    (x.setWord i v).ObsEq (y.setWord i v) := by
  refine ⟨h.1, fun hl => ⟨(h.2 hl).1, fun j hj => ?_⟩⟩
  rw [Slot.word_setWord, Slot.word_setWord, (h.2 hl).2 j hj]

/-- A slot made live is zero below its new length, whatever it held. -/
theorem Slot.mapped_obsEq (x y : Slot) (n : Nat) : (x.mapped n).ObsEq (y.mapped n) := by
  refine ⟨rfl, fun _ => ⟨rfl, fun j hj => ?_⟩⟩
  have hj : ¬n ≤ j := Nat.not_le.2 hj
  rw [Slot.word_mapped, Slot.word_mapped, if_neg hj, if_neg hj]

theorem Slot.ObsEq.retired {x y : Slot} : Slot.ObsEq { x with live := false } { y with live := false } :=
  ⟨rfl, fun hl => by simp at hl⟩

/-- What is copied from a live slot is observable, so the copies agree. -/
theorem Slot.ObsEq.installed {x y x' y' : Slot} (hd : x.ObsEq y) (hs : x'.ObsEq y') (hl : x'.live = true) :
    (x.installed x').ObsEq (y.installed y') := by
  obtain ⟨hlen, hword⟩ := hs.2 hl
  refine ⟨hd.1, fun _ => ⟨hlen, fun j hj => ?_⟩⟩
  have hj : j < x'.len := hj
  rw [Slot.word_installed, Slot.word_installed, hlen, if_pos hj, if_pos hj, hword j hj]

/-! ### What a program can observe of a state -/

section
variable {s t : State}

theorem ObsEq.slot (h : ObsEq s t) (id : Nat) : (s.slot id).ObsEq (t.slot id) := h.2 id

theorem ObsEq.reg (h : ObsEq s t) (r : Reg) : t.reg r = s.reg r := by rw [h.1]; rfl
theorem ObsEq.cfg (h : ObsEq s t) : t.cfg = s.cfg := by rw [h.1]
theorem ObsEq.pc (h : ObsEq s t) : t.pc = s.pc := by rw [h.1]
theorem ObsEq.run (h : ObsEq s t) : t.run = s.run := by rw [h.1]
theorem ObsEq.nextFree (h : ObsEq s t) : t.nextFree = s.nextFree := by rw [h.1]
theorem ObsEq.nextItem (h : ObsEq s t) : t.nextItem = s.nextItem := by rw [h.1]; rfl
theorem ObsEq.mapTarget (h : ObsEq s t) : t.mapTarget = s.mapTarget := by rw [h.1]; rfl
theorem ObsEq.live (h : ObsEq s t) (id : Nat) : t.live id = s.live id := (h.2 id).1

/-- An update that neither reads nor writes memory keeps two states alike. -/
theorem ObsEq.update (h : ObsEq s t) (f : State → State) (hf : ∀ u m, f { u with mem := m } = { f u with mem := m }) :
    ObsEq (f s) (f t) := by
  have hmem : ∀ u, (f u).mem = u.mem := fun u => by simpa using congrArg State.mem (hf u u.mem)
  have hslot : ∀ u id, (f u).slot id = u.slot id := fun u id => by unfold State.slot; rw [hmem]
  refine ⟨?_, fun id => ?_⟩
  · calc f t = f { s with mem := t.mem } := congrArg f h.1
      _ = { f s with mem := t.mem } := hf s t.mem
      _ = { f s with mem := (f t).mem } := by rw [hmem]
  · have hid := h.slot id
    rw [← hslot s, ← hslot t] at hid
    exact hid

theorem ObsEq.setReg (h : ObsEq s t) (r : Reg) (v : Word) : ObsEq (s.setReg r v) (t.setReg r v) :=
  h.update (·.setReg r v) fun _ _ => rfl

theorem ObsEq.complete (h : ObsEq s t) (op : BitVec 4) (pc : Word) : ObsEq (s.complete op pc) (t.complete op pc) :=
  h.update (·.complete op pc) fun _ _ => rfl

theorem ObsEq.advance (h : ObsEq s t) (op : BitVec 4) : ObsEq (s.advance op) (t.advance op) :=
  h.update (·.advance op) fun _ _ => rfl

theorem ObsEq.trapEntry (h : ObsEq s t) (c : Cause) (w : Word) : ObsEq (trapEntry c w s) (trapEntry c w t) :=
  h.update (Machine.trapEntry c w) fun _ _ => rfl

theorem ObsEq.setSlot (h : ObsEq s t) {x y : Slot} (hx : x.ObsEq y) (id : Nat) :
    ObsEq (s.setSlot id x) (t.setSlot id y) := by
  refine ⟨by unfold State.setSlot; rw [h.1], fun j => ?_⟩
  change ((s.setSlot id x).slot j).ObsEq ((t.setSlot id y).slot j)
  rw [slot_setSlot, slot_setSlot]
  split
  · exact hx
  · exact h.slot j

/-! ### The shared operations do not observe more -/

theorem ObsEq.validAccess (h : ObsEq s t) (id idx : Word) : t.validAccess id idx = s.validAccess id idx := by
  rw [Bool.eq_iff_iff, validAccess_iff, validAccess_iff, h.cfg, h.live]
  refine and_congr_right fun _ => and_congr_right fun hl => ?_
  rw [show t.len id.toNat = s.len id.toNat from ((h.slot _).2 hl).1]

theorem ObsEq.memRead (h : ObsEq s t) (id idx : Word) : memRead t id idx = memRead s id idx := by
  unfold Machine.memRead
  rw [h.validAccess]
  split
  · next hv =>
    obtain ⟨-, hl, hidx⟩ := (validAccess_iff s id idx).1 hv
    exact congrArg Except.ok (((h.slot _).2 hl).2 _ hidx)
  · rfl

theorem ObsEq.fetch (h : ObsEq s t) (h0 : s.live 0 = true) : fetch t = fetch s := by
  obtain ⟨hlen, hword⟩ := (h.slot 0).2 h0
  unfold Machine.fetch
  rw [h.pc, show t.len 0 = s.len 0 from hlen]
  split
  · next hlt => exact congrArg Except.ok (hword _ hlt)
  · rfl

/-- A fault records the same word in both. -/
theorem ObsEq.raiseFault (h : ObsEq s t) (h0 : s.live 0 = true) (c : Cause) :
    ObsEq (raiseFault c s) (raiseFault c t) := by
  have hw : t.fetchedWord = s.fetchedWord := by unfold State.fetchedWord; rw [h.fetch h0]
  unfold Machine.raiseFault
  rw [hw]
  exact h.trapEntry c _

/-- Two answers of a shared operation that a program cannot tell apart: states alike, or the same fault. -/
def SameAnswer (x y : Except Cause State) : Prop :=
  (∃ u v, x = .ok u ∧ y = .ok v ∧ ObsEq u v) ∨ ∃ c, x = .error c ∧ y = .error c

theorem ObsEq.memWrite (h : ObsEq s t) (id idx v : Word) : SameAnswer (memWrite s id idx v) (memWrite t id idx v) := by
  unfold Machine.memWrite
  rw [h.validAccess]
  split
  · exact .inl ⟨_, _, rfl, rfl, h.setSlot ((h.slot _).setWord _ v) _⟩
  · exact .inr ⟨_, rfl, rfl⟩

theorem ObsEq.afterMap (h : ObsEq s t) (id n : Nat) : ObsEq (s.afterMap id n) (t.afterMap id n) :=
  (h.setSlot (Slot.mapped_obsEq (s.slot id) (t.slot id) n) id).update
    (fun u => { u with nextFree := if u.pool.isEmpty then u.nextFree + 1 else u.nextFree, pool := u.pool.tail })
    fun _ _ => rfl

/-- `Map` binds the same identifier in both, or faults in both. -/
theorem ObsEq.mapSegment (h : ObsEq s t) (n : Nat) :
    (∃ id, mapSegment s n = .ok (id, s.afterMap id n) ∧ mapSegment t n = .ok (id, t.afterMap id n)) ∨
      ∃ c, mapSegment s n = .error c ∧ mapSegment t n = .error c := by
  unfold Machine.mapSegment
  rw [h.mapTarget]
  cases s.mapTarget with
  | none => exact .inr ⟨_, rfl, rfl⟩
  | some id =>
    simp only [h.cfg]
    split
    · exact .inr ⟨_, rfl, rfl⟩
    · exact .inl ⟨id, rfl, rfl⟩

theorem ObsEq.unmapSegment (h : ObsEq s t) (id : Nat) : SameAnswer (unmapSegment s id) (unmapSegment t id) := by
  unfold Machine.unmapSegment
  rw [h.nextFree, h.live]
  split
  · exact .inr ⟨_, rfl, rfl⟩
  split
  · exact .inr ⟨_, rfl, rfl⟩
  split
  · exact .inr ⟨_, rfl, rfl⟩
  · exact .inl ⟨_, _, rfl, rfl,
      (h.setSlot Slot.ObsEq.retired id).update (fun u => { u with pool := id :: u.pool }) fun _ _ => rfl⟩

theorem ObsEq.installSegment (h : ObsEq s t) (id : Nat) : SameAnswer (installSegment s id) (installSegment t id) := by
  unfold Machine.installSegment
  rw [h.cfg, h.live]
  split
  · exact .inl ⟨_, _, rfl, rfl, h⟩
  split
  · exact .inr ⟨_, rfl, rfl⟩
  · next hlive =>
    have hl : s.live id = true := by simpa using (not_or.1 hlive).2
    exact .inl ⟨_, _, rfl, rfl, h.setSlot ((h.slot 0).installed (h.slot id) hl) 0⟩

end

/-! ### Instructions and steps do not observe more -/

/-- Two outcomes that a program cannot tell apart: next states alike or the same fault, and no refusal. -/
inductive SameOutcome : Host.Outcome State Fault Refusal → Host.Outcome State Fault Refusal → Prop
  | next {s t : State} (h : ObsEq s t) : SameOutcome (.next s) (.next t)
  | fault (f : Fault) : SameOutcome (.fault f) (.fault f)

theorem exec_sameOutcome (i : Instr) {s t : State} (h : ObsEq s t) (h0 : s.live 0 = true) :
    SameOutcome (exec i s) (exec i t) := by
  cases i with
  | cmov a b c =>
    simp only [exec, execCmov, h.reg]
    split
    · exact .next (h.advance 0)
    · exact .next ((h.setReg a _).advance 0)
  | sload a b c =>
    simp only [exec, execSload, h.reg, h.memRead]
    cases memRead s (s.reg b) (s.reg c) with
    | ok v => exact .next ((h.setReg a v).advance 1)
    | error e => exact .next (h.raiseFault h0 e)
  | sstore a b c =>
    simp only [exec, execSstore, h.reg]
    rcases h.memWrite (s.reg a) (s.reg b) (s.reg c) with ⟨u, v, hu, hv, huv⟩ | ⟨e, hu, hv⟩ <;> rw [hu, hv]
    · exact .next (huv.advance 2)
    · exact .next (h.raiseFault h0 e)
  | add | mul | nand =>
    simp only [exec, execAdd, execMul, execNand, h.reg]
    exact .next ((h.setReg _ _).advance _)
  | div a b c =>
    simp only [exec, execDiv, h.reg]
    cases quotientWord (s.reg b) (s.reg c) with
    | ok v => exact .next ((h.setReg a v).advance 5)
    | error e => exact .next (h.raiseFault h0 e)
  | halt =>
    exact .next (h.update (fun u => { u.complete 7 u.pc with run := .halted }) fun _ _ => rfl)
  | map b c =>
    simp only [exec, execMap, h.reg]
    rcases h.mapSegment (s.reg c).toNat with ⟨id, hu, hv⟩ | ⟨e, hu, hv⟩ <;> rw [hu, hv]
    · exact .next (((h.afterMap id _).setReg b _).advance 8)
    · exact .next (h.raiseFault h0 e)
  | unmap c =>
    simp only [exec, execUnmap, h.reg]
    rcases h.unmapSegment (s.reg c).toNat with ⟨u, v, hu, hv, huv⟩ | ⟨e, hu, hv⟩ <;> rw [hu, hv]
    · exact .next (huv.advance 9)
    · exact .next (h.raiseFault h0 e)
  | out c =>
    simp only [exec, execOut, h.reg]
    cases outByte (s.reg c) with
    | some b => exact .next (h.update (fun u => State.advance { u with outSeq := u.outSeq ++ [b] } 10) fun _ _ => rfl)
    | none => exact .next (h.raiseFault h0 .outputRange)
  | inp c =>
    simp only [exec, execInp, h.nextItem]
    exact .next (h.update (fun u => u.beginWait.answerInput c s.nextItem) fun _ _ => rfl)
  | loadprog b c =>
    simp only [exec, execLoadprog, h.reg]
    rcases h.installSegment (s.reg b).toNat with ⟨u, v, hu, hv, huv⟩ | ⟨e, hu, hv⟩ <;> rw [hu, hv]
    · exact .next (huv.complete 12 _)
    · exact .next (h.raiseFault h0 e)
  | li a imm => exact .next ((h.setReg a (immValue imm)).advance 13)

theorem step_sameOutcome {s t : State} (h : ObsEq s t) (h0 : s.live 0 = true) : SameOutcome (step s) (step t) := by
  unfold step
  rw [h.run, h.fetch h0]
  cases s.run with
  | idle | halted | faulted => exact .fault _
  | running =>
    rcases fetch_cases s with ⟨-, hf⟩ | ⟨-, hf⟩ <;> simp only [hf]
    · rcases decode_cases (s.word 0 s.pc.toNat) with ⟨i, hd, -⟩ | ⟨hd, -⟩ <;> simp only [hd]
      · exact exec_sameOutcome i h h0
      · exact .next (h.trapEntry .illegalOpcode _)
    · exact .next (h.trapEntry .fetchAddress 0)

/-- Settles O58: the outcomes of a step from two states that a program cannot tell apart cannot be told apart. -/
theorem unspecifiedWordsAreNeverObserved : Obligations.UnspecifiedWordsAreNeverObserved := by
  intro s t h0 h
  have hsame := step_sameOutcome h h0
  refine ⟨fun s' hs => ?_, fun f hs => ?_, fun r hs => ?_⟩ <;> rw [hs] at hsame
  · generalize step t = o at hsame
    cases hsame with
    | next h => exact ⟨_, rfl, h⟩
  · generalize step t = o at hsame
    cases hsame
    rfl
  · cases hsame

/-! ### The status relations -/

/-- The unit is at an `in` only while RUNNING (R38). -/
theorem inputRequest_of_not_running {s : State} (h : s.run ≠ .running) : s.inputRequest = none := by
  cases hq : s.inputRequest with
  | none => rfl
  | some c => exact absurd (inputRequest_eq_some hq).1 h

/-- Outside RUNNING the unit does not wait (R38). -/
theorem StatusInv.not_waiting {s : State} (h : StatusInv s) (hr : s.run ≠ .running) : s.inWait = false := by
  rw [Bool.eq_false_iff]
  intro hw
  simpa [inputRequest_of_not_running hr] using h.wait_at_in hw

/-- All the status relations but the place of a wait speak of the status fields alone. -/
theorem StatusInv.congr {s t : State} (h : StatusInv s) (hr : t.run = s.run) (hc : t.cause = s.cause)
    (hf : t.faultWord = s.faultWord) (hv : t.lastValid = s.lastValid) (ho : t.lastOp = s.lastOp)
    (hw : t.inWait = true → t.inputRequest.isSome = true) : StatusInv t where
  cause_none := by rw [hc, hr]; exact h.cause_none
  cause_named := by rw [hc]; exact h.cause_named
  word_zero := by rw [hr, hf]; exact h.word_zero
  fetch_word_zero := by rw [hc, hf]; exact h.fetch_word_zero
  wait_at_in := hw
  last_op_le := by rw [ho]; exact h.last_op_le
  last_op_zero := by rw [hv, ho]; exact h.last_op_zero
  halted_by_halt := by rw [hr, hv, ho]; exact h.halted_by_halt

/-! ### What each transaction of the host can do -/

/-- `LOAD` faults when segment 0 is full, appends in IDLE otherwise, and is ignored elsewhere (R138). -/
theorem hostLoad_cases (w : Word) (s : State) :
    (s.run = .idle ∧ s.len 0 = s.cfg.seg0Cap ∧
        hostLoad w s = { s with run := .faulted, cause := .loadOverflow, faultWord := w }) ∨
      (s.run = .idle ∧ s.len 0 ≠ s.cfg.seg0Cap ∧
        hostLoad w s = s.setSlot 0 { (s.slot 0).setWord (s.len 0) w with len := s.len 0 + 1 }) ∨
      (s.run ≠ .idle ∧ hostLoad w s = s) := by
  unfold hostLoad
  by_cases hr : s.run = .idle
  · by_cases hfull : s.len 0 = s.cfg.seg0Cap <;> simp [hr, hfull]
  · exact .inr (.inr ⟨hr, by split <;> [exact absurd ‹_› hr; rfl]⟩)

/-- `START` makes an IDLE unit RUNNING and is ignored elsewhere (R124). -/
theorem hostStart_cases (s : State) :
    (s.run = .idle ∧ hostStart s = { s with run := .running }) ∨ (s.run ≠ .idle ∧ hostStart s = s) := by
  unfold hostStart
  by_cases hr : s.run = .idle
  · exact .inl ⟨hr, by simp [hr]⟩
  · exact .inr ⟨hr, by split <;> [exact absurd ‹_› hr; rfl]⟩

/-- Waiting does not move the unit away from its `in`. -/
theorem inputRequest_beginWait (s : State) : s.beginWait.inputRequest = s.inputRequest := rfl

theorem enterWait_of_request {s : State} {c : Reg} (h : s.inputRequest = some c) : s.enterWait = s.beginWait := by
  unfold State.enterWait; rw [h]

theorem enterWait_of_no_request {s : State} (h : s.inputRequest = none) : s.enterWait = s := by
  unfold State.enterWait; rw [h]

theorem hostOffer_of_request {s : State} {c : Reg} (hw : s.inWait = true) (h : s.inputRequest = some c)
    (item : InputItem) : hostOffer item s = s.answerInput c item := by
  unfold hostOffer; rw [if_pos hw, h]

theorem hostOffer_of_not_waiting {s : State} (hw : s.inWait = false) (item : InputItem) : hostOffer item s = s := by
  simp [hostOffer, hw]

theorem hostOffer_of_no_request {s : State} (h : s.inputRequest = none) (item : InputItem) : hostOffer item s = s := by
  unfold hostOffer; rw [h, ite_self]

/-- An offered item completes a waiting `in`, or is not taken (R126). -/
theorem hostOffer_cases (item : InputItem) (s : State) :
    (∃ c, s.inWait = true ∧ s.inputRequest = some c ∧ hostOffer item s = s.answerInput c item) ∨
      hostOffer item s = s := by
  cases hq : s.inputRequest with
  | none => exact .inr (hostOffer_of_no_request hq item)
  | some c =>
    cases hw : s.inWait with
    | false => exact .inr (hostOffer_of_not_waiting hw item)
    | true => exact .inl ⟨c, rfl, rfl, hostOffer_of_request hw hq item⟩

/-! ### Reset and the host keep the invariant -/

/-- Settles O8: memory lists the empty segment 0 alone, and the status fields are all 0. -/
theorem resetSatisfiesInvariant : Obligations.ResetSatisfiesInvariant := by
  intro cfg inSeq hc
  have hnseg : 1 ≤ cfg.nseg := by
    simp only [Config.wellFormed, Bool.and_eq_true, decide_eq_true_eq] at hc
    exact hc.1.1.1
  refine ⟨controllerInv_of_entries _ ⟨hc, reset_mem_wf cfg inSeq, rfl, le_rfl, hnseg, ?_, List.nodup_nil, ?_, ?_⟩, ?_⟩
  · intro id hid
    have hid : id < 1 := hid
    obtain rfl : id = 0 := by omega
    simp [State.resetWith, State.live, State.slot, sparseGet_cons]
  · simp [State.resetWith]
  · simp [State.resetWith]
  · constructor <;> simp [State.resetWith]

theorem hostLoad_inv {s : State} (h : s.Inv) (w : Word) : (hostLoad w s).Inv := by
  obtain ⟨hctl, hst⟩ := h
  rcases hostLoad_cases w s with ⟨hr, -, e⟩ | ⟨hr, hroom, e⟩ | ⟨-, e⟩ <;> rw [e]
  · have hw : s.inWait = false := hst.not_waiting (by simp [hr])
    have htrap : StatusInv (trapEntry .loadOverflow w s) := hst.trapEntry (by decide) (by decide) fun h => by cases h
    exact ⟨hctl.congr rfl rfl rfl rfl, htrap.congr rfl rfl rfl rfl rfl (by simp [hw])⟩
  · have hw : s.inWait = false := hst.not_waiting (by simp [hr])
    have hlt : s.len 0 < capacity s.cfg 0 := lt_of_le_of_ne (hctl.len_le 0) hroom
    have hfit := (hctl.storage.fits 0).setWord hlt w
    exact ⟨hctl.setSlot rfl ⟨hfit.wf, hlt, hfit.words_in⟩, hst.congr rfl rfl rfl rfl rfl (by simp [hw])⟩
  · exact ⟨hctl, hst⟩

theorem hostStart_inv {s : State} (h : s.Inv) : (hostStart s).Inv := by
  obtain ⟨hctl, hst⟩ := h
  rcases hostStart_cases s with ⟨hr, e⟩ | ⟨-, e⟩ <;> rw [e]
  · have hw : s.inWait = false := hst.not_waiting (by simp [hr])
    have hcause : s.cause = .none := hst.cause_none.2 (by simp [hr])
    have hword : s.faultWord = 0 := hst.word_zero (by simp [hr])
    exact ⟨hctl.congr rfl rfl rfl rfl,
      { cause_none := by simp [hcause]
        cause_named := hst.cause_named
        word_zero := fun _ => hword
        fetch_word_zero := fun _ => hword
        wait_at_in := by simp [hw]
        last_op_le := hst.last_op_le
        last_op_zero := hst.last_op_zero
        halted_by_halt := by simp }⟩
  · exact ⟨hctl, hst⟩

/-- The answer to a waiting `in` is a completed instruction. -/
theorem completes_answerInput (s : State) (c : Reg) (item : InputItem) :
    Completes (.inp c) s (s.answerInput c item) :=
  ⟨rfl, rfl, rfl, rfl, rfl, rfl, rfl, .inr ⟨rfl, c, rfl⟩⟩

theorem hostOffer_inv {s : State} (h : s.Inv) (item : InputItem) : (hostOffer item s).Inv := by
  obtain ⟨hctl, hst⟩ := h
  rcases hostOffer_cases item s with ⟨c, -, hq, e⟩ | e <;> rw [e]
  · exact ⟨hctl.congr rfl rfl rfl rfl, (completes_answerInput s c item).statusInv hst (inputRequest_eq_some hq).1 rfl⟩
  · exact ⟨hctl, hst⟩

theorem enterWait_inv {s : State} (h : s.Inv) : s.enterWait.Inv := by
  obtain ⟨hctl, hst⟩ := h
  cases hq : s.inputRequest with
  | none => rw [enterWait_of_no_request hq]; exact ⟨hctl, hst⟩
  | some c =>
    rw [enterWait_of_request hq]
    exact ⟨hctl.congr rfl rfl rfl rfl,
      hst.congr rfl rfl rfl rfl rfl fun _ => by rw [inputRequest_beginWait, hq]; rfl⟩

/-- Settles O55, one transaction after the other. -/
theorem hostKeepsInvariant : Obligations.HostKeepsInvariant := by
  refine fun s h => ⟨enterWait_inv h, fun a => ?_⟩
  cases a with
  | reset => exact resetSatisfiesInvariant s.cfg s.inSeq h.1.cfg_wf
  | load w => exact hostLoad_inv h w
  | start => exact hostStart_inv h
  | readStatus addr => exact h
  | offer item => exact hostOffer_inv h item

/-- Every reachable state has the invariant: it holds after reset, and all that happens keeps it. -/
theorem Reachable.inv {s : State} (h : Reachable s) : s.Inv := by
  induction h with
  | reset cfg inSeq hc => exact resetSatisfiesInvariant cfg inSeq hc
  | host a _ ih => exact (hostKeepsInvariant _ ih).2 a
  | wait _ ih => exact (hostKeepsInvariant _ ih).1
  | step _ he ih => exact stepKeepsInvariant _ _ ih he

/-- Settles O56, from the invariant of every reachable state. -/
theorem reachableControllerInvariants : Obligations.ReachableControllerInvariants := by
  intro s h
  have hi := h.inv.1
  refine ⟨hi.live_zero, fun id hid => ⟨?_, ?_, List.nodup_iff_count_le_one.1 hi.pool_nodup id⟩, hi.fresh, hi.pool_pos,
    fun id _ => hi.len_le id⟩
  · rw [hi.issued id hid]; exact (em _).symm
  · rw [hi.issued id hid]; exact fun ⟨hn, hp⟩ => hn hp

/-! ### What no transaction of the host changes -/

/-- Settles O47: `exec_parameters`, and no fault and no transaction writes the two fields. -/
theorem parametersNeverChange : Obligations.ParametersNeverChange := by
  refine ⟨fun s t h => ?_, fun a s => ?_⟩
  · obtain ⟨-, ⟨-, rfl⟩ | ⟨w, -, -, rfl⟩ | ⟨w, i, -, -, -, he⟩⟩ := step_cases h
    · exact ⟨rfl, rfl⟩
    · exact ⟨rfl, rfl⟩
    · exact exec_parameters he
  · cases a with
    | reset => exact ⟨rfl, rfl⟩
    | load w =>
      rcases hostLoad_cases w s with ⟨-, -, e⟩ | ⟨-, -, e⟩ | ⟨-, e⟩ <;> rw [hostAct, e] <;> exact ⟨rfl, rfl⟩
    | start => rcases hostStart_cases s with ⟨-, e⟩ | ⟨-, e⟩ <;> rw [hostAct, e] <;> exact ⟨rfl, rfl⟩
    | readStatus addr => exact ⟨rfl, rfl⟩
    | offer item => rcases hostOffer_cases item s with ⟨c, -, -, e⟩ | e <;> rw [hostAct, e] <;> exact ⟨rfl, rfl⟩

/-- Settles O13: the unit is neither RUNNING, where alone it steps, nor IDLE, where alone the host loads and
starts it. -/
theorem onlyResetLeavesTerminalStates : Obligations.OnlyResetLeavesTerminalStates := by
  intro s hend
  have hrun : s.run ≠ .running := by rcases hend with h | h <;> simp [h]
  have hidle : s.run ≠ .idle := by rcases hend with h | h <;> simp [h]
  have hrequest := inputRequest_of_not_running hrun
  refine ⟨fun t h => hrun (step_cases h).1, enterWait_of_no_request hrequest, fun a ha => ?_⟩
  cases a with
  | reset => exact absurd rfl ha
  | load w =>
    rcases hostLoad_cases w s with ⟨hr, -⟩ | ⟨hr, -⟩ | ⟨-, e⟩
    · exact absurd hr hidle
    · exact absurd hr hidle
    · exact e
  | start =>
    rcases hostStart_cases s with ⟨hr, -⟩ | ⟨-, e⟩
    · exact absurd hr hidle
    · exact e
  | readStatus addr => rfl
  | offer item => exact hostOffer_of_no_request hrequest item

/-! ### The wait of an `in` -/

/-- A running unit steps as the instruction it fetches. -/
theorem step_of_decode {s : State} {w : Word} {i : Instr} (hr : s.run = .running) (hf : fetch s = .ok w)
    (hd : decode w = .ok i) : step s = exec i s := by
  simp only [step, hr, hf, hd]

/-- Settles O14: the wait answered with an item is `answerInput`, and the step of the `in` is that for the next item. -/
theorem offeredItemCompletesInput : Obligations.OfferedItemCompletesInput := by
  refine ⟨fun s c hc => ?_, fun s item hw => hostOffer_of_not_waiting hw item⟩
  have hanswer : ∀ item, hostAct (.offer item) s.enterWait = s.beginWait.answerInput c item := fun item => by
    rw [enterWait_of_request hc]
    exact hostOffer_of_request (s := s.beginWait) rfl hc item
  refine ⟨enterWait_of_request hc, ?_, fun item => ?_⟩
  · obtain ⟨hr, w, hf, hd⟩ := inputRequest_eq_some hc
    rw [step_of_decode hr hf hd, hanswer]
    rfl
  · have hreg : ∀ r, (s.beginWait.answerInput c item).reg r = if r = c then item.value else s.reg r :=
      fun r => RegFile.get_set s.regs c r item.value
    rw [hanswer]
    refine ⟨rfl, by rw [hreg, if_pos rfl], fun r hn => ?_, rfl⟩
    rw [hreg, if_neg (by simpa using hn)]

/-! ### The status register -/

theorem RunState.code_le (r : RunState) : r.code ≤ 3 := by cases r <;> decide

theorem Cause.code_le (c : Cause) : c.code ≤ 12 := by cases c <;> decide

/-- STATUS as a number: every field fits, so the sum does not wrap. -/
theorem toNat_statusWord (s : State) : s.statusWord.toNat =
    s.run.code + 4 * s.inWait.toNat + 8 * s.lastValid.toNat + 16 * s.lastOp.toNat + 256 * s.cause.code := by
  have hrun := s.run.code_le
  have hcause := s.cause.code_le
  have hop := s.lastOp.isLt
  have hwait := s.inWait.toNat_le
  have hvalid := s.lastValid.toNat_le
  rw [State.statusWord, BitVec.toNat_ofNat]
  omega

/-- Each field of STATUS comes out where the rule places it (R36). -/
theorem statusWord_fields (s : State) :
    extractUnsigned s.statusWord 2 0 = BitVec.ofNat 2 s.run.code ∧
      extractUnsigned s.statusWord 1 2 = BitVec.ofBool s.inWait ∧
      extractUnsigned s.statusWord 1 3 = BitVec.ofBool s.lastValid ∧
      extractUnsigned s.statusWord 4 4 = s.lastOp ∧
      extractUnsigned s.statusWord 4 8 = BitVec.ofNat 4 s.cause.code ∧
      extractUnsigned s.statusWord 20 12 = 0 := by
  have hrun := s.run.code_le
  have hcause := s.cause.code_le
  have hop := s.lastOp.isLt
  have hwait := s.inWait.toNat_le
  have hvalid := s.lastValid.toNat_le
  refine ⟨?_, ?_, ?_, ?_, ?_, ?_⟩ <;> apply BitVec.eq_of_toNat_eq <;> rw [toNat_extractUnsigned, toNat_statusWord]
  · rw [BitVec.toNat_ofNat]; omega
  · rw [BitVec.toNat_ofBool]; omega
  · rw [BitVec.toNat_ofBool]; omega
  · omega
  · rw [BitVec.toNat_ofNat]; omega
  · rw [show BitVec.toNat (0 : BitVec 20) = 0 from rfl]; omega

/-- Settles O12: the fields by `statusWord_fields`, the codes and the reset value by computation. -/
theorem statusWordLayout : Obligations.StatusWordLayout := by
  exact ⟨statusWord_fields, by decide, by decide, fun _ _ => rfl, fun _ _ => rfl⟩

/-! ### What an instruction records and changes -/

/-- Settles O40: a fault writes neither field, and a completed instruction ends outside FAULTED. -/
theorem lastOpRecordsCompletedInstruction : Obligations.LastOpRecordsCompletedInstruction := by
  refine ⟨fun s t h => ?_, fun s => ⟨rfl, rfl⟩⟩
  obtain ⟨hr, ⟨-, rfl⟩ | ⟨w, -, -, rfl⟩ | ⟨w, i, hf, -, ho, he⟩⟩ := step_cases h
  · exact ⟨fun hn => absurd rfl hn, fun _ => ⟨rfl, rfl⟩⟩
  · exact ⟨fun hn => absurd rfl hn, fun _ => ⟨rfl, rfl⟩⟩
  · rcases exec_cases i s with ⟨u, hu, hc⟩ | ⟨c, -, hu⟩ <;> cases he.symm.trans hu
    · have hrun : t.run ≠ .faulted := by rw [hc.run]; split <;> simp [hr]
      exact ⟨fun _ => ⟨by rw [hc.lastOp, ho, fetchedWord_of_fetch hf], hc.lastValid⟩, fun hn => absurd hn hrun⟩
    · exact ⟨fun hn => absurd rfl hn, fun _ => ⟨rfl, rfl⟩⟩

/-- Equal memories give every slot the same length. -/
theorem len_of_mem {s t : State} (h : t.mem = s.mem) (id : Nat) : t.len id = s.len id := by
  unfold State.len State.slot; rw [h]

/-- Settles O44: a store and an `unmap` keep lengths, and the identifier a `map` binds was not live. -/
theorem liveLengthsChangeOnlyByInstall : Obligations.LiveLengthsChangeOnlyByInstall := by
  intro i s t id hinv he hl hne
  rcases exec_memory_cases he with ⟨hm, -⟩ | ⟨a, b, c, -, -, hm, -⟩ | ⟨b, c, id', -, ht, -, hm, -⟩ |
    ⟨c, -, -, -, -, hm, -⟩ | ⟨b, c, hi, -, -, hm, -⟩ <;> rw [len_of_mem hm] at hne
  · exact absurd rfl hne
  · exact absurd (len_setWord _ _ _ _ _) hne
  · have hother : id ≠ id' := fun e => by simp [e, (mapTarget_of_inv hinv ht).2.2.2] at hl
    refine absurd ?_ hne
    rw [State.len, slot_afterMap, if_neg hother]
    rfl
  · refine absurd ?_ hne
    rw [State.len, slot_afterUnmap]
    split
    · next h => rw [h]; rfl
    · rfl
  · refine ⟨?_, b, c, hi⟩
    by_contra h0
    exact hne (by rw [len_setSlot, if_neg h0])

/-! ### Another register file -/

/-- The state with another register file, all else the same. -/
def State.withRegFile (f : RegFile) (s : State) : State := { s with regs := f }

section
variable (f : RegFile) (s : State)

@[simp] theorem withRegFile_reg (r : Reg) : (s.withRegFile f).reg r = f.get r := rfl

/-! The shared operations take register values as arguments: they do not look at the file, and pass it on. -/

theorem memRead_withRegFile (id idx : Word) : memRead (s.withRegFile f) id idx = memRead s id idx := rfl

theorem memWrite_withRegFile (id idx v : Word) :
    memWrite (s.withRegFile f) id idx v = (memWrite s id idx v).map (State.withRegFile f) := by
  unfold memWrite
  rw [apply_ite (Except.map (State.withRegFile f))]
  rfl

theorem mapSegment_withRegFile (n : Nat) :
    mapSegment (s.withRegFile f) n = (mapSegment s n).map (Prod.map id (State.withRegFile f)) := by
  have htarget : (s.withRegFile f).mapTarget = s.mapTarget := rfl
  unfold mapSegment
  rw [htarget]
  cases s.mapTarget with
  | none => rfl
  | some seg =>
    simp only [apply_ite (Except.map (Prod.map id (State.withRegFile f)))]
    rfl

theorem unmapSegment_withRegFile (id : Nat) :
    unmapSegment (s.withRegFile f) id = (unmapSegment s id).map (State.withRegFile f) := by
  simp only [unmapSegment, apply_ite (Except.map (State.withRegFile f))]
  rfl

theorem installSegment_withRegFile (id : Nat) :
    installSegment (s.withRegFile f) id = (installSegment s id).map (State.withRegFile f) := by
  simp only [installSegment, apply_ite (Except.map (State.withRegFile f))]
  rfl

end

/-! ### The registers an instruction writes -/

/-- What an instruction does to the registers, seen from two register files, `s.regs` before `t.regs` and `f` before
`g`: a register it may write ends equal in both, or the register is left alone in both. -/
def WritesAlike (i : Instr) (s t : State) (f g : RegFile) : Prop :=
  ∀ r, (r ∈ writtenRegs i ∧ g.get r = t.reg r) ∨ (g.get r = f.get r ∧ t.reg r = s.reg r)

theorem writesAlike_none {i : Instr} {s t : State} {f : RegFile} (h : t.regs = s.regs) : WritesAlike i s t f f :=
  fun r => .inr ⟨rfl, congrArg (RegFile.get · r) h⟩

theorem writesAlike_set {i : Instr} {s t : State} {f : RegFile} {a : Reg} {v : Word} (ha : a ∈ writtenRegs i)
    (h : t.regs = s.regs.set a v) : WritesAlike i s t f (f.set a v) := by
  intro r
  rw [State.reg, State.reg, h, RegFile.get_set, RegFile.get_set]
  by_cases hr : r = a
  · rw [if_pos hr, if_pos hr]; exact .inl ⟨hr ▸ ha, rfl⟩
  · rw [if_neg hr, if_neg hr]; exact .inr ⟨rfl, rfl⟩

/-- An instruction does the same from two register files that agree on the registers it reads, to all but the registers,
and it writes to them alike. -/
theorem exec_withRegFile (i : Instr) (s : State) {f : RegFile} (hf : ∀ r, r ∈ readRegs i → f.get r = s.reg r) :
    ∃ t g, exec i s = .next t ∧ exec i (s.withRegFile f) = .next (t.withRegFile g) ∧ WritesAlike i s t f g := by
  cases i with
  | cmov a b c =>
    simp only [readRegs, List.forall_mem_cons] at hf
    by_cases hc : s.reg c = 0 <;> simp only [exec, execCmov, withRegFile_reg, hf, hc, if_true, if_false]
    · exact ⟨_, f, rfl, rfl, writesAlike_none rfl⟩
    · exact ⟨_, _, rfl, rfl, writesAlike_set (List.mem_singleton_self a) rfl⟩
  | sload a b c =>
    simp only [readRegs, List.forall_mem_cons] at hf
    simp only [exec, execSload, withRegFile_reg, hf, memRead_withRegFile]
    cases memRead s (s.reg b) (s.reg c) with
    | ok v => exact ⟨_, _, rfl, rfl, writesAlike_set (List.mem_singleton_self a) rfl⟩
    | error e => exact ⟨_, f, rfl, rfl, writesAlike_none rfl⟩
  | sstore a b c =>
    simp only [readRegs, List.forall_mem_cons] at hf
    simp only [exec, execSstore, withRegFile_reg, hf, memWrite_withRegFile]
    rcases memWrite_cases s (s.reg a) (s.reg b) (s.reg c) with ⟨-, e⟩ | ⟨-, e⟩ <;> rw [e]
    · exact ⟨_, f, rfl, rfl, writesAlike_none rfl⟩
    · exact ⟨_, f, rfl, rfl, writesAlike_none rfl⟩
  | add a b c | mul a b c | nand a b c =>
    simp only [readRegs, List.forall_mem_cons] at hf
    simp only [exec, execAdd, execMul, execNand, withRegFile_reg, hf]
    exact ⟨_, _, rfl, rfl, writesAlike_set (List.mem_singleton_self a) rfl⟩
  | div a b c =>
    simp only [readRegs, List.forall_mem_cons] at hf
    simp only [exec, execDiv, withRegFile_reg, hf]
    cases quotientWord (s.reg b) (s.reg c) with
    | ok v => exact ⟨_, _, rfl, rfl, writesAlike_set (List.mem_singleton_self a) rfl⟩
    | error e => exact ⟨_, f, rfl, rfl, writesAlike_none rfl⟩
  | halt => exact ⟨_, f, rfl, rfl, writesAlike_none rfl⟩
  | map b c =>
    simp only [readRegs, List.forall_mem_cons] at hf
    simp only [exec, execMap, withRegFile_reg, hf, mapSegment_withRegFile]
    rcases mapSegment_cases s (s.reg c).toNat with ⟨id, -, -, e⟩ | ⟨-, e⟩ <;> rw [e]
    · exact ⟨_, _, rfl, rfl, writesAlike_set (List.mem_singleton_self b) rfl⟩
    · exact ⟨_, f, rfl, rfl, writesAlike_none rfl⟩
  | unmap c =>
    simp only [readRegs, List.forall_mem_cons] at hf
    simp only [exec, execUnmap, withRegFile_reg, hf, unmapSegment_withRegFile]
    rcases unmapSegment_cases s (s.reg c).toNat with ⟨-, -, -, e⟩ | ⟨-, e⟩ | ⟨-, -, e⟩ | ⟨-, -, -, e⟩ <;> rw [e]
    all_goals exact ⟨_, f, rfl, rfl, writesAlike_none rfl⟩
  | out c =>
    simp only [readRegs, List.forall_mem_cons] at hf
    simp only [exec, execOut, withRegFile_reg, hf]
    cases outByte (s.reg c) <;> exact ⟨_, f, rfl, rfl, writesAlike_none rfl⟩
  | inp c => exact ⟨_, _, rfl, rfl, writesAlike_set (List.mem_singleton_self c) rfl⟩
  | loadprog b c =>
    simp only [readRegs, List.forall_mem_cons] at hf
    simp only [exec, execLoadprog, withRegFile_reg, hf, installSegment_withRegFile]
    rcases installSegment_cases s (s.reg b).toNat with ⟨-, e⟩ | ⟨-, -, -, e⟩ | ⟨-, -, e⟩ <;> rw [e]
    all_goals exact ⟨_, f, rfl, rfl, writesAlike_none rfl⟩
  | li a imm => exact ⟨_, _, rfl, rfl, writesAlike_set (List.mem_singleton_self a) rfl⟩

/-- Settles O42: the second part is `exec_withRegFile`, the first is that lemma for the state's own register file. -/
theorem registersReadAndWritten : Obligations.RegistersReadAndWritten := by
  refine ⟨fun i s t h r hr => ?_, fun i s f t hf h => ?_⟩
  · obtain ⟨u, g, hu, -, hw⟩ := exec_withRegFile i s (f := s.regs) fun _ _ => rfl
    cases h.symm.trans hu
    rcases hw r with ⟨hmem, -⟩ | ⟨-, hsame⟩
    · exact absurd hmem hr
    · exact hsame
  · obtain ⟨u, g, hu, hg, hw⟩ := exec_withRegFile i s hf
    cases h.symm.trans hu
    exact ⟨g, hg, fun r => (hw r).imp_left And.right⟩

end Sys2Proof.Machine

/-! PROOFS. The memory statements: the fetch (R55), a store that the next step runs (R66), and segments of length 0
(R60). -/

namespace Sys2Proof.Machine

/-! ### The fetch -/

theorem fetch_of_pc_lt {s : State} (h : s.pc.toNat < s.len 0) : fetch s = .ok (s.word 0 s.pc.toNat) := by
  rcases fetch_cases s with ⟨-, e⟩ | ⟨hle, -⟩
  · exact e
  · exact absurd hle (Nat.not_le.2 h)

theorem fetch_of_len_le {s : State} (h : s.len 0 ≤ s.pc.toNat) : fetch s = .error .fetchAddress := by
  rcases fetch_cases s with ⟨hlt, -⟩ | ⟨-, e⟩
  · exact absurd hlt (Nat.not_lt.2 h)
  · exact e

/-- A running unit whose fetch fails takes the fault with FAULT_WORD 0 (R117). -/
theorem step_of_fetch_error {s : State} {c : Cause} (hr : s.run = .running) (hf : fetch s = .error c) :
    step s = .next (trapEntry c 0 s) := by
  simp only [step, hr, hf]

/-- Settles O19, on either side of the end of segment 0. -/
theorem fetchReadsSegmentZero : Obligations.FetchReadsSegmentZero :=
  fun _ => ⟨fetch_of_pc_lt, fun hle hr => ⟨_, step_of_fetch_error hr (fetch_of_len_le hle), rfl⟩⟩

/-! ### A store into the next word -/

/-- A store to a valid address completes. -/
theorem exec_sstore_of_valid {a b : Reg} {s : State} (h : s.validAccess (s.reg a) (s.reg b) = true) (c : Reg) :
    exec (.sstore a b c) s = .next ((s.setWord (s.reg a).toNat (s.reg b).toNat (s.reg c)).advance 2) := by
  rcases exec_sstore_cases a b c s with ⟨-, e⟩ | ⟨hv, -⟩
  · exact e
  · simp [h] at hv

/-- After an instruction that writes the word at the next pc in segment 0, that word is fetched (R66). -/
theorem fetch_advance_setWord {s : State} (h : (s.pc + 1).toNat < s.len 0) (v : Word) (op : BitVec 4) :
    fetch ((s.setWord 0 (s.pc + 1).toNat v).advance op) = .ok v := by
  rw [fetch_of_pc_lt (by simpa [len_setWord] using h)]
  simp [word_setWord]

/-- Settles O49: the store is to a valid address, and the word it writes is the one at the pc after it. -/
theorem storedWordIsRunNext : Obligations.StoredWordIsRunNext := by
  intro a b c s i hr ha hb hnseg hlive hlen hd
  have ha : (s.reg a).toNat = 0 := by simp [ha]
  have hvalid : s.validAccess (s.reg a) (s.reg b) = true := by
    rw [validAccess_iff, ha]
    exact ⟨hnseg, hlive, hlen⟩
  have hstore := exec_sstore_of_valid hvalid c
  rw [ha, hb] at hstore
  have hfetch := fetch_advance_setWord (hb ▸ hlen) (s.reg c) 2
  exact ⟨_, hstore, hfetch, step_of_decode hr hfetch hd⟩

/-! ### Segments of length 0 -/

/-- When an identifier is available, `Map` has one to bind (R56). -/
theorem exists_mapTarget {s : State} (h : s.pool ≠ [] ∨ s.nextFree < s.cfg.nseg) : ∃ id, s.mapTarget = some id := by
  unfold State.mapTarget
  cases hp : s.pool with
  | cons id rest => exact ⟨id, rfl⟩
  | nil => exact ⟨s.nextFree, if_pos (h.resolve_left (absurd hp))⟩

/-- A `map` of no words completes whenever an identifier is available: the capacity of its slot does not matter. -/
theorem exec_map_of_zero {c : Reg} {s : State} (hc : s.reg c = 0) (h : s.pool ≠ [] ∨ s.nextFree < s.cfg.nseg)
    (b : Reg) : ∃ id, s.mapTarget = some id ∧
      exec (.map b c) s = .next (((s.afterMap id 0).setReg b (BitVec.ofNat 32 id)).advance 8) := by
  have hc : (s.reg c).toNat = 0 := by simp [hc]
  obtain ⟨id, ht⟩ := exists_mapTarget h
  rcases exec_map_cases b c s with ⟨id', ht', -, e⟩ | ⟨hfull, -⟩
  · exact ⟨id', ht', hc ▸ e⟩
  · have hcap := hfull id ht
    omega

section
variable {s : State} {b : Reg}

/-- No index is inside a segment of length 0. -/
theorem validAccess_of_len_zero {id : Word} (h : s.len id.toNat = 0) (idx : Word) : s.validAccess id idx = false := by
  rw [Bool.eq_false_iff, ne_eq, validAccess_iff, h]
  omega

theorem exec_sload_of_len_zero (h : s.len (s.reg b).toNat = 0) (a i : Reg) :
    exec (.sload a b i) s = .next (raiseFault .dataAddress s) := by
  rcases exec_sload_cases a b i s with ⟨hv, -⟩ | ⟨-, e⟩
  · simp [validAccess_of_len_zero h] at hv
  · exact e

theorem exec_sstore_of_len_zero (h : s.len (s.reg b).toNat = 0) (i v : Reg) :
    exec (.sstore b i v) s = .next (raiseFault .dataAddress s) := by
  rcases exec_sstore_cases b i v s with ⟨hv, -⟩ | ⟨-, e⟩
  · simp [validAccess_of_len_zero h] at hv
  · exact e

/-- An `unmap` of a live segment other than 0 completes, whatever its length: a live identifier is issued. -/
theorem exec_unmap_of_live (hi : ControllerInv s) (h0 : (s.reg b).toNat ≠ 0) (hl : s.live (s.reg b).toNat = true) :
    exec (.unmap b) s = .next ((s.afterUnmap (s.reg b).toNat).advance 9) := by
  have hissued := ((hi.issue.live_iff _).1 hl).1
  rcases exec_unmap_cases b s with ⟨-, -, -, e⟩ | ⟨hle, -⟩ | ⟨-, hz, -⟩ | ⟨-, -, hn, -⟩
  · exact e
  · omega
  · exact absurd hz h0
  · simp [hl] at hn

/-- A `loadprog` of a live segment other than 0 installs it. -/
theorem exec_loadprog_of_live (h0 : (s.reg b).toNat ≠ 0) (hn : (s.reg b).toNat < s.cfg.nseg)
    (hl : s.live (s.reg b).toNat = true) (p : Reg) :
    exec (.loadprog b p) s =
      .next ((s.setSlot 0 ((s.slot 0).installed (s.slot (s.reg b).toNat))).complete 12 (s.reg p)) := by
  rcases exec_loadprog_cases b p s with ⟨hz, -⟩ | ⟨-, -, -, e⟩ | ⟨-, hbad, -⟩
  · exact absurd hz h0
  · exact e
  · rcases hbad with hle | hdead
    · omega
    · simp [hl] at hdead

end

/-- Installing a segment gives segment 0 its length (R58). -/
theorem len_zero_setSlot_installed (s : State) (id : Nat) :
    (s.setSlot 0 ((s.slot 0).installed (s.slot id))).len 0 = s.len id := by
  rw [len_setSlot, if_pos rfl]
  rfl

/-- What a `map` of no words leaves for the register it writes: a live segment of length 0 other than segment 0. -/
theorem exec_map_empty_segment {b c : Reg} {s : State} (hinv : ControllerInv s) (hc : s.reg c = 0)
    (havail : s.pool ≠ [] ∨ s.nextFree < s.cfg.nseg) :
    ∃ t, exec (.map b c) s = .next t ∧ t.run = s.run ∧ (t.reg b).toNat ≠ 0 ∧ (t.reg b).toNat < t.cfg.nseg ∧
      t.live (t.reg b).toNat = true ∧ t.len (t.reg b).toNat = 0 := by
  obtain ⟨id, ht, he⟩ := exec_map_of_zero hc havail b
  obtain ⟨h0, hnseg, hfits, -⟩ := mapTarget_of_inv hinv ht
  refine ⟨_, he, rfl, ?_⟩
  rw [advance_reg, reg_setReg, if_pos rfl, BitVec.toNat_ofNat, Nat.mod_eq_of_lt hfits, advance_live, advance_len,
    setReg_live, setReg_len, State.live, State.len, slot_afterMap, if_pos rfl]
  exact ⟨h0, hnseg, rfl, rfl⟩

/-- Settles O51: the segment bound is live, not segment 0 and of length 0, in a state that has the invariant again. -/
theorem zeroLengthSegmentFaultsEveryAccess : Obligations.ZeroLengthSegmentFaultsEveryAccess := by
  intro b c s hinv hc havail
  obtain ⟨t, he, hrun, h0, hnseg, hlive, hlen⟩ := exec_map_empty_segment (b := b) hinv hc havail
  refine ⟨t, he, hlive, hlen, ?sload, ?sstore, ?unmap, ?loadprog⟩
  case sload => exact fun a i => ⟨_, exec_sload_of_len_zero hlen a i, rfl⟩
  case sstore => exact fun i v => ⟨_, exec_sstore_of_len_zero hlen i v, rfl⟩
  case unmap =>
    refine ⟨_, exec_unmap_of_live (hinv.exec he) h0 hlive, ?_, hrun⟩
    rw [advance_live, Bool.eq_false_iff, ne_eq, live_afterUnmap]
    exact fun h => h.1 rfl
  case loadprog =>
    intro p
    have hempty := (len_zero_setSlot_installed t (t.reg b).toNat).trans hlen
    exact ⟨_, exec_loadprog_of_live h0 hnseg hlive p, hempty, fetch_of_len_le (hempty.le.trans (Nat.zero_le _))⟩

end Sys2Proof.Machine

/-! PROOFS. The encoding statements: encoding and decoding (R69 to R80), and what a step does with the word it fetched
(R84 to R88). -/

namespace Sys2Proof

/-! ### Registers as three-bit fields -/

theorem Reg.toNat_bits_r0 : Reg.r0.bits.toNat = 0 := rfl

/-- The register a field names has the field's bits. -/
theorem toNat_bits_ofBits_extract (w : Word) (lsb : Nat) :
    (Reg.ofBits (extractUnsigned w 3 lsb)).bits.toNat = w.toNat / 2 ^ lsb % 2 ^ 3 := by
  rw [Reg.bits_ofBits, toNat_extractUnsigned]

/-- A register comes out of a word that holds its bits in the field. -/
theorem ofBits_extractUnsigned {w : Word} {lsb : Nat} {r : Reg} (h : w.toNat / 2 ^ lsb % 2 ^ 3 = r.bits.toNat) :
    Reg.ofBits (extractUnsigned w 3 lsb) = r := by
  rw [BitVec.eq_of_toNat_eq ((toNat_extractUnsigned w 3 lsb).trans h), Reg.ofBits_bits]

/-! ### The words the encoder writes -/

theorem toNat_encR (op : BitVec 4) (a b c : Reg) :
    (encR op a b c).toNat = op.toNat * 2 ^ 28 + a.bits.toNat * 2 ^ 6 + b.bits.toNat * 2 ^ 3 + c.bits.toNat := by
  have ha := a.bits.isLt
  have hb := b.bits.isLt
  have hc := c.bits.isLt
  unfold encR
  iterate 4 rw [toNat_insertUnsigned _ _ _ _ (by omega)]
  simp
  omega

theorem toNat_encI (a : Reg) (imm : BitVec 25) :
    (encI a imm).toNat = 13 * 2 ^ 28 + a.bits.toNat * 2 ^ 25 + imm.toNat := by
  have ha := a.bits.isLt
  have himm := imm.isLt
  unfold encI
  iterate 3 rw [toNat_insertUnsigned _ _ _ _ (by omega)]
  simp
  omega

section
variable (op : BitVec 4) (a b c : Reg) (imm : BitVec 25)

@[simp] theorem opcodeField_encR : opcodeField (encR op a b c) = op :=
  BitVec.eq_of_toNat_eq ((toNat_opcodeField _).trans (opcode_encR op a b c))

@[simp] theorem fieldA_encR : fieldA (encR op a b c) = a := by
  have ha := a.bits.isLt
  have hb := b.bits.isLt
  have hc := c.bits.isLt
  exact ofBits_extractUnsigned (by rw [toNat_encR]; omega)

@[simp] theorem fieldB_encR : fieldB (encR op a b c) = b := by
  have hb := b.bits.isLt
  have hc := c.bits.isLt
  exact ofBits_extractUnsigned (by rw [toNat_encR]; omega)

@[simp] theorem fieldC_encR : fieldC (encR op a b c) = c := by
  rw [fieldC, encR, extractUnsigned_insertUnsigned (by omega), Reg.ofBits_bits]

@[simp] theorem opcodeField_encI : opcodeField (encI a imm) = 13 :=
  BitVec.eq_of_toNat_eq ((toNat_opcodeField _).trans (opcode_encI a imm))

@[simp] theorem fieldDest_encI : fieldDest (encI a imm) = a := by
  have ha := a.bits.isLt
  have himm := imm.isLt
  exact ofBits_extractUnsigned (by rw [toNat_encI]; omega)

@[simp] theorem fieldImm_encI : fieldImm (encI a imm) = imm := by
  rw [fieldImm, encI, extractUnsigned_insertUnsigned (by omega)]

end

/-- Decoding takes the encoding back: the opcode field selects the instruction and the fields give its operands. -/
theorem decode_encode (i : Instr) : decode (encode i) = .ok i := by
  cases i <;> simp [encode, decode]

theorem encode_injective : Function.Injective encode := by
  intro i j h
  have hd := decode_encode i
  rw [h, decode_encode] at hd
  exact (Except.ok.inj hd).symm

/-! ### The bits an instruction uses -/

/-- How many low bits of a word its instruction's operand fields cover, by opcode; an instruction uses these and the
opcode field alone (R76). -/
def operandBits (op : Nat) : Nat :=
  if op ≤ 6 then 9 else if op = 7 then 0 else if op = 8 ∨ op = 12 then 6 else if op ≤ 11 then 3 else 28

theorem operandBits_le {op : Nat} (h : op ≤ 13) : operandBits op ≤ 28 := by
  revert op
  decide

theorem not_ignoredBits {op : Nat} (h : op ≤ 13) :
    ~~~ignoredBits op = 0xF0000000 ||| BitVec.ofNat 32 (2 ^ operandBits op - 1) := by
  revert op
  decide

/-- Keeping the opcode field and the lowest `k` bits of a word. -/
theorem toNat_and_opcodeMask_or (w : Word) {k : Nat} (hk : k ≤ 28) :
    (w &&& (0xF0000000 ||| BitVec.ofNat 32 (2 ^ k - 1))).toNat = w.toNat / 2 ^ 28 * 2 ^ 28 + w.toNat % 2 ^ k := by
  have hpow : 2 ^ k ≤ 2 ^ 28 := Nat.pow_le_pow_right (by omega) hk
  have hlow : w.toNat % 2 ^ k < 2 ^ 28 := (Nat.mod_lt _ (Nat.two_pow_pos k)).trans_le hpow
  have hmask : (2 ^ k - 1) % 2 ^ 32 = 2 ^ k - 1 := Nat.mod_eq_of_lt (by omega)
  rw [BitVec.and_or_distrib_left, BitVec.toNat_or, toNat_and_opcodeMask, BitVec.toNat_and, BitVec.toNat_ofNat, hmask,
    Nat.and_two_pow_sub_one_eq_mod, Nat.mul_comm, Nat.two_pow_add_eq_or_of_lt hlow]

/-- Encoding what a word decodes to keeps its opcode field and the bits of its operands. -/
theorem toNat_encode_of_decode {w : Word} {i : Instr} (h : decode w = .ok i) :
    (encode i).toNat = w.toNat / 2 ^ 28 * 2 ^ 28 + w.toNat % 2 ^ operandBits i.opcode.toNat := by
  have hop := toNat_opcodeField w
  unfold decode at h
  split at h <;> cases h
  all_goals
    simp [encode, Instr.opcode, operandBits, toNat_encR, toNat_encI, fieldA, fieldB, fieldC, fieldDest, fieldImm,
      toNat_bits_ofBits_extract, toNat_extractUnsigned, Reg.toNat_bits_r0]
    omega

theorem opcode_of_decode {w : Word} {i : Instr} (h : decode w = .ok i) : i.opcode = opcodeField w := by
  rcases decode_cases w with ⟨j, hj, hop, -⟩ | ⟨he, -⟩
  · cases h.symm.trans hj
    exact hop
  · cases h.symm.trans he

/-- Encoding what a word decodes to clears the bits the instruction ignores. -/
theorem encode_of_decode {w : Word} {i : Instr} (h : decode w = .ok i) :
    encode i = w &&& ~~~ignoredBits i.opcode.toNat := by
  apply BitVec.eq_of_toNat_eq
  have hop := Machine.opcode_le i
  rw [toNat_encode_of_decode h, not_ignoredBits hop, toNat_and_opcodeMask_or w (operandBits_le hop)]

/-- Clearing the bits of a mask leaves a word as it is exactly if it has none of them. -/
theorem and_not_eq_self_iff (w m : Word) : w &&& ~~~m = w ↔ w &&& m = 0 := by
  have hsplit : w = (w &&& m) ||| (w &&& ~~~m) := by
    rw [← BitVec.and_or_distrib_left, BitVec.or_not_self, BitVec.and_allOnes]
  constructor
  · intro h
    calc w &&& m = (w &&& ~~~m) &&& m := by rw [h]
      _ = 0 := by simp [BitVec.and_assoc, BitVec.and_comm (~~~m)]
  · intro h
    rw [h] at hsplit
    simpa using hsplit.symm

/-- Settles O2: re-encoding clears the ignored bits, so it gives the word back exactly if they are 0 already. -/
theorem canonicalWordsReencode : Obligations.CanonicalWordsReencode := by
  intro w i h
  have hop : w.toNat / 2 ^ 28 = i.opcode.toNat := by rw [opcode_of_decode h, toNat_opcodeField]
  rw [encode_of_decode h, and_not_eq_self_iff, canonicalWord, hop]
  simp [Machine.opcode_le i]

/-- Settles O1: the two formulas, the fields by the laws of insertion, and `decode_encode`; a word that is the encoding
of what it decodes to is canonical. -/
theorem decodeEncodeAgree : Obligations.DecodeEncodeAgree :=
  ⟨toNat_encR, toNat_encI,
    fun op a b c => ⟨opcodeField_encR op a b c, fieldA_encR op a b c, fieldB_encR op a b c, fieldC_encR op a b c⟩,
    fun a imm => ⟨opcodeField_encI a imm, fieldDest_encI a imm, fieldImm_encI a imm⟩,
    fun i => ⟨(canonicalWordsReencode _ i (decode_encode i)).1 rfl, decode_encode i⟩⟩

/-- Settles O3, by the two answers of the decoder. -/
theorem decodingIsTotal : Obligations.DecodingIsTotal := by
  intro w
  have hfield := toNat_opcodeField w
  rcases decode_cases w with ⟨i, hd, hop, hle⟩ | ⟨hd, hle⟩
  · exact ⟨fun _ => ⟨i, hd, by rw [hop, hfield]⟩, fun hw => by omega⟩
  · exact ⟨fun hw => by omega, fun _ => hd⟩

/-- Words that agree on a mask agree on every part of it. -/
theorem and_eq_of_submask {w v m m' : Word} (hsub : m &&& m' = m') (h : w &&& m = v &&& m) : w &&& m' = v &&& m' := by
  rw [← hsub, ← BitVec.and_assoc, h, BitVec.and_assoc]

/-- The bits an instruction uses have its opcode field among them. -/
theorem not_ignoredBits_and_opcodeMask {op : Nat} (h : op ≤ 13) : ~~~ignoredBits op &&& 0xF0000000 = 0xF0000000 := by
  revert op
  decide

/-- A word with a legal opcode decodes to an instruction with that opcode. -/
theorem exists_decode_of_opcode_le {w : Word} (h : (opcodeField w).toNat ≤ 13) :
    ∃ i, decode w = .ok i ∧ i.opcode = opcodeField w := by
  rcases decode_cases w with ⟨i, hi, hop, -⟩ | ⟨-, hge⟩
  · exact ⟨i, hi, hop⟩
  · omega

/-- Two words decode alike if the first has a legal opcode and they agree on a mask that has every bit its instruction
uses: they have the same opcode, and what they decode to is encoded alike. -/
theorem decode_eq_of_and_eq {w v mask : Word} {op : Nat} (hop : (opcodeField w).toNat = op) (hle : op ≤ 13)
    (hmask : mask &&& ~~~ignoredBits op = ~~~ignoredBits op) (h : w &&& mask = v &&& mask) :
    decode w = decode v ∧ ∃ i, decode w = .ok i := by
  have hused : w &&& ~~~ignoredBits op = v &&& ~~~ignoredBits op := and_eq_of_submask hmask h
  have hopcode : w &&& 0xF0000000 = v &&& 0xF0000000 := and_eq_of_submask (not_ignoredBits_and_opcodeMask hle) hused
  have hv : (opcodeField v).toNat = op := by rw [opcode_of_mask hopcode.symm, ← opcode_of_mask (w := w) rfl, hop]
  obtain ⟨i, hi, hio⟩ := exists_decode_of_opcode_le (hop.trans_le hle)
  obtain ⟨j, hj, hjo⟩ := exists_decode_of_opcode_le (hv.trans_le hle)
  have hsame : encode i = encode j := by
    rw [encode_of_decode hi, encode_of_decode hj, hio, hjo, hop, hv, hused]
  exact ⟨by rw [hi, hj, encode_injective hsame], i, hi⟩

/-- Settles O4: every mask holds the bits that its opcodes use. -/
theorem ignoredBitsHaveNoEffect : Obligations.IgnoredBitsHaveNoEffect := by
  refine ⟨fun w v hw h => ?_, fun w v hw h => ?_, fun w v hw h => ?_, fun w v hw h => ?_, fun w v hw hv => ?_⟩
  · have hle : (opcodeField w).toNat ≤ 12 := by rw [toNat_opcodeField]; omega
    have hmask : ∀ op ≤ 12, 0xF00001FF &&& ~~~ignoredBits op = ~~~ignoredBits op := by decide
    exact decode_eq_of_and_eq rfl (by omega) (hmask _ hle) h
  · exact (decode_eq_of_and_eq (opcode_of_mask hw) (by decide) (by decide) h).1
  · rcases hw with hw | hw | hw <;> exact (decode_eq_of_and_eq (opcode_of_mask hw) (by decide) (by decide) h).1
  · exact (decode_eq_of_and_eq (opcode_of_mask hw) (by decide) (by decide) h).1
  · exact (decode_eq_of_and_eq (opcode_of_mask hw) (by decide) (by decide) (hw.trans hv.symm)).1

/-- Settles O5, by running the decoder. -/
theorem specWordsDecode : Obligations.SpecWordsDecode := by
  unfold Obligations.SpecWordsDecode
  decide

end Sys2Proof

namespace Sys2Proof.Machine

/-! ### Steps of a running unit -/

/-- Every instruction answers a next state, whatever the state. -/
theorem exists_exec_next (i : Instr) (s : State) : ∃ t, exec i s = .next t := by
  rcases exec_cases i s with ⟨t, ht, -⟩ | ⟨c, -, ht⟩ <;> exact ⟨_, ht⟩

/-- A running unit whose fetched word does not decode takes ILLEGAL_OPCODE (R79). -/
theorem step_of_decode_error {s : State} {w : Word} {e : DecodeError} (hr : s.run = .running) (hf : fetch s = .ok w)
    (hd : decode w = .error e) : step s = .next (trapEntry .illegalOpcode w s) := by
  obtain ⟨op⟩ := e
  simp only [step, hr, hf, hd]

/-- Settles O18, which `step_of_decode` states for one step. -/
theorem stepRunsDecodedInstruction : Obligations.StepRunsDecodedInstruction :=
  fun _ _ _ hr hf hd => step_of_decode hr hf hd

/-- Settles O20: such a word does not decode. -/
theorem illegalOpcodeFaults : Obligations.IllegalOpcodeFaults :=
  fun _ w hr hf hw => ⟨_, step_of_decode_error hr hf ((decodingIsTotal w).2 hw), rfl⟩

/-- Settles O21: only a running unit steps, and each of its three ways to step has a next state. -/
theorem stepsExactlyWhileRunning : Obligations.StepsExactlyWhileRunning := by
  refine fun s => ⟨fun ⟨t, h⟩ => (step_cases h).1, fun hr => ?_⟩
  rcases fetch_cases s with ⟨-, hf⟩ | ⟨-, hf⟩
  · rcases decode_cases (s.word 0 s.pc.toNat) with ⟨i, hd, -⟩ | ⟨hd, -⟩
    · rw [step_of_decode hr hf hd]
      exact exists_exec_next i s
    · exact ⟨_, step_of_decode_error hr hf hd⟩
  · exact ⟨_, step_of_fetch_error hr hf⟩

/-! ### How a step ends -/

theorem fetchedWord_of_fetch_error {s : State} {c : Cause} (h : fetch s = .error c) : s.fetchedWord = 0 := by
  unfold State.fetchedWord; rw [h]

/-- A completed instruction of a running unit does not end in FAULTED. -/
theorem Completes.run_ne_faulted {i : Instr} {s t : State} (h : Completes i s t) (hr : s.run = .running) :
    t.run ≠ .faulted := by
  rw [h.run]; split <;> simp [hr]

/-- Settles O38: each of the three faults of a step is a trap entry with the fetched word, 0 where nothing was
fetched. -/
theorem faultsArePrecise : Obligations.FaultsArePrecise := by
  intro s t h hfault
  obtain ⟨hr, ⟨hf, rfl⟩ | ⟨w, hf, -, rfl⟩ | ⟨w, i, -, -, -, he⟩⟩ := step_cases h
  · have hw := fetchedWord_of_fetch_error hf
    exact ⟨by simp, by rw [hw]; rfl, fun _ => hw⟩
  · exact ⟨by simp, by rw [fetchedWord_of_fetch hf]; rfl, by simp⟩
  · rcases exec_cases i s with ⟨u, hu, hc⟩ | ⟨c, hne, hu⟩ <;> cases he.symm.trans hu
    · exact absurd hfault (hc.run_ne_faulted hr)
    · have hmem := exec_fault_cause hr he hfault
      exact ⟨hne, rfl, fun hfetch => absurd (hfetch ▸ hmem) (not_mem_raisableCauses i).1⟩

/-- Settles O48: a fault ends the run, and a completed instruction goes on, but for `halt`. -/
theorem runEndsByHaltOrFault : Obligations.RunEndsByHaltOrFault := by
  intro s t h
  have hfault : t.run = .faulted → t.run = .faulted ∧ t.ended = true ∧ t.successful = false := fun ht => by
    simp [State.ended, State.successful, ht]
  obtain ⟨hr, ⟨-, rfl⟩ | ⟨w, -, -, rfl⟩ | ⟨w, i, hf, hd, -, he⟩⟩ := step_cases h
  · exact .inr (.inr (hfault rfl))
  · exact .inr (.inr (hfault rfl))
  · rcases exec_cases i s with ⟨u, hu, hc⟩ | ⟨c, -, hu⟩ <;> cases he.symm.trans hu
    · have hrun := hc.run
      split at hrun
      · next hi => exact .inr (.inl ⟨hrun, by rw [fetchedWord_of_fetch hf, hd, hi], by simp [State.ended, hrun]⟩)
      · exact .inl ⟨hrun.trans hr, by simp [State.ended, hrun, hr]⟩
    · exact .inr (.inr (hfault rfl))

/-! ### The pc after an instruction -/

/-- Where the pc stands when an instruction completes (R86). -/
def nextPc (s : State) : Instr → Word
  | .halt => s.pc
  | .loadprog _ c => s.reg c
  | _ => s.pc + 1

/-- An instruction that does not end in FAULTED leaves the pc where R86 says. -/
theorem exec_pc {i : Instr} {s t : State} (h : exec i s = .next t) (hn : t.run ≠ .faulted) :
    t.pc = nextPc s i := by
  have hcompleted : ∀ {u : State}, exec i s = .next u → u.pc = nextPc s i → t.pc = nextPc s i :=
    fun hu hpc => by cases h.symm.trans hu; exact hpc
  have hfaulted : ∀ {c : Cause}, exec i s ≠ .next (raiseFault c s) := fun hu => by
    cases h.symm.trans hu
    exact hn rfl
  cases i with
  | cmov a b c => exact hcompleted rfl (by split <;> rfl)
  | add | mul | nand | halt | inp | li => exact hcompleted rfl rfl
  | sload a b c =>
    rcases exec_sload_cases a b c s with ⟨-, e⟩ | ⟨-, e⟩
    · exact hcompleted e rfl
    · exact absurd e hfaulted
  | sstore a b c =>
    rcases exec_sstore_cases a b c s with ⟨-, e⟩ | ⟨-, e⟩
    · exact hcompleted e rfl
    · exact absurd e hfaulted
  | div a b c =>
    rcases exec_div_cases a b c s with ⟨-, e⟩ | ⟨-, e⟩
    · exact hcompleted e rfl
    · exact absurd e hfaulted
  | map b c =>
    rcases exec_map_cases b c s with ⟨id, -, -, e⟩ | ⟨-, e⟩
    · exact hcompleted e rfl
    · exact absurd e hfaulted
  | unmap c =>
    rcases exec_unmap_cases c s with ⟨-, -, -, e⟩ | ⟨-, e⟩ | ⟨-, -, e⟩ | ⟨-, -, -, e⟩
    · exact hcompleted e rfl
    all_goals exact absurd e hfaulted
  | out c =>
    rcases exec_out_cases c s with ⟨-, e⟩ | ⟨-, e⟩
    · exact hcompleted e rfl
    · exact absurd e hfaulted
  | loadprog b c =>
    rcases exec_loadprog_cases b c s with ⟨-, e⟩ | ⟨-, -, -, e⟩ | ⟨-, -, e⟩
    · exact hcompleted e rfl
    · exact hcompleted e rfl
    · exact absurd e hfaulted

theorem fieldC_of_decode_loadprog {w : Word} {b c : Reg} (h : decode w = .ok (.loadprog b c)) : fieldC w = c := by
  unfold decode at h
  split at h <;> cases h
  rfl

/-- Where the pc goes, by the opcode of the word that was decoded. -/
theorem nextPc_of_decode {w : Word} {i : Instr} (h : decode w = .ok i) (s : State) :
    nextPc s i = if w.toNat / 2 ^ 28 = 7 then s.pc
      else if w.toNat / 2 ^ 28 = 12 then s.reg (fieldC w)
      else s.pc + 1 := by
  rw [← toNat_opcodeField, ← opcode_of_decode h]
  cases i with
  | loadprog b c => rw [fieldC_of_decode_loadprog h]; rfl
  | _ => rfl

theorem eq_halt_iff_opcode (i : Instr) : i = .halt ↔ i.opcode.toNat = 7 := by
  cases i <;> simp [Instr.opcode]

theorem word_add_one_eq_ofNat (x : Word) : x + 1 = BitVec.ofNat 32 ((x.toNat + 1) % 2 ^ 32) := by
  apply BitVec.eq_of_toNat_eq
  simp

/-- Settles O41: the step ran the decoded instruction to its end, whose opcode is the word's. -/
theorem pcUpdateByOpcode : Obligations.PcUpdateByOpcode := by
  intro s t w h hw hn
  obtain ⟨hr, ⟨hf, -⟩ | ⟨_, -, -, rfl⟩ | ⟨w', i, hf, hd, -, he⟩⟩ := step_cases h
  · cases hw.symm.trans hf
  · exact absurd rfl hn
  · cases hw.symm.trans hf
    refine ⟨by rw [exec_pc he hn, nextPc_of_decode hd, word_add_one_eq_ofNat], ?_⟩
    rcases exec_cases i s with ⟨u, hu, hc⟩ | ⟨c, -, hu⟩ <;> cases he.symm.trans hu
    · rw [hc.run, hr, ← toNat_opcodeField, ← opcode_of_decode hd]
      simp only [eq_halt_iff_opcode]
    · exact absurd rfl hn

end Sys2Proof.Machine

/-! PROOFS. The conditional move (R91), the all-zero word among its words. -/

namespace Sys2Proof.Machine

/-! ### One register written and the pc advanced -/

section
variable (s : State) (a : Reg) (v : Word) (op : BitVec 4)

theorem regsExcept_setReg_advance : RegsExcept [a] s ((s.setReg a v).advance op) := by
  intro r hr
  rw [advance_reg, reg_setReg, if_neg (by simpa using hr)]

theorem completedInRegs_setReg_advance : CompletedInRegs op s ((s.setReg a v).advance op) := rfl

theorem setReg_reg_self : s.setReg a (s.reg a) = s := by cases a <;> rfl

end

/-! ### The conditional move -/

theorem selectedBy_cmov : SelectedBy 0x00000000 (fun w => .cmov (fieldA w) (fieldB w) (fieldC w)) := by
  intro w hw
  have hop : (opcodeField w).toNat = 0 := opcode_of_mask hw
  simp only [decode, hop]

/-- A move that is not made writes the destination's own value back. -/
theorem exec_cmov (a b c : Reg) (s : State) :
    exec (.cmov a b c) s = .next ((s.setReg a (if s.reg c = 0 then s.reg a else s.reg b)).advance 0) := by
  by_cases hc : s.reg c = 0
  · simp only [exec, execCmov, if_pos hc, setReg_reg_self]
  · simp only [exec, execCmov, if_neg hc]

/-- A register moved to itself stays, whatever the condition. -/
theorem exec_cmov_same (a c : Reg) (s : State) : exec (.cmov a a c) s = .next (s.advance 0) := by
  rw [exec_cmov, ite_self, setReg_reg_self]

/-- Settles O22: `cmov` is one register write, of the old source or of the old destination. -/
theorem cmovMovesIfConditionNonzero : Obligations.CmovMovesIfConditionNonzero := by
  refine ⟨selectedBy_cmov, fun a b c s => ⟨rfl, _, exec_cmov a b c s, ?_, regsExcept_setReg_advance _ _ _ _, rfl,
    completedInRegs_setReg_advance _ _ _ _⟩⟩
  rw [advance_reg, reg_setReg, if_pos rfl]

/-- Settles O53: the word is `cmov r0, r0, r0`, which moves a register to itself. -/
theorem zeroWordOnlyAdvances : Obligations.ZeroWordOnlyAdvances := by
  intro s hr hf
  have hd : decode 0 = .ok (.cmov .r0 .r0 .r0) := by decide
  rw [step_of_decode hr hf hd, exec_cmov_same]
  rfl

end Sys2Proof.Machine

/-! PROOFS. Segment load and segment store (R92, R93). -/

namespace Sys2Proof.Machine

/-! ### The access check -/

/-- The three ways an access is not valid (R52). -/
theorem validAccess_eq_false_iff (s : State) (id idx : Word) :
    s.validAccess id idx = false ↔
      s.cfg.nseg ≤ id.toNat ∨ s.live id.toNat = false ∨ s.len id.toNat ≤ idx.toNat := by
  rw [Bool.eq_false_iff, ne_eq, validAccess_iff, not_and_or, not_and_or, Nat.not_lt, Nat.not_lt, Bool.not_eq_true]

/-! ### The segment load -/

theorem selectedBy_sload : SelectedBy 0x10000000 (fun w => .sload (fieldA w) (fieldB w) (fieldC w)) := by
  intro w hw
  have hop : (opcodeField w).toNat = 1 := opcode_of_mask hw
  simp only [decode, hop]

theorem exec_sload_of_valid {b c : Reg} {s : State} (h : s.validAccess (s.reg b) (s.reg c) = true) (a : Reg) :
    exec (.sload a b c) s = .next ((s.setReg a (s.word (s.reg b).toNat (s.reg c).toNat)).advance 1) := by
  rcases exec_sload_cases a b c s with ⟨-, e⟩ | ⟨hv, -⟩
  · exact e
  · simp [h] at hv

theorem exec_sload_of_invalid {b c : Reg} {s : State} (h : s.validAccess (s.reg b) (s.reg c) = false) (a : Reg) :
    exec (.sload a b c) s = .next (raiseFault .dataAddress s) := by
  rcases exec_sload_cases a b c s with ⟨hv, -⟩ | ⟨-, e⟩
  · simp [h] at hv
  · exact e

/-- Settles O23: a valid load is one register write of the addressed word, and any other is the fault. -/
theorem sloadReadsOrFaults : Obligations.SloadReadsOrFaults := by
  refine ⟨selectedBy_sload, fun a b c s => ⟨rfl, fun hvalid => ?reads, fun hinvalid => ?faults⟩⟩
  case reads =>
    have he := exec_sload_of_valid ((validAccess_iff _ _ _).2 hvalid) a
    refine ⟨_, he, ?_, regsExcept_setReg_advance _ _ _ _, rfl, completedInRegs_setReg_advance _ _ _ _⟩
    rw [advance_reg, reg_setReg, if_pos rfl]
  case faults => exact ⟨_, exec_sload_of_invalid ((validAccess_eq_false_iff _ _ _).2 hinvalid) a, rfl⟩

/-! ### The segment store -/

theorem selectedBy_sstore : SelectedBy 0x20000000 (fun w => .sstore (fieldA w) (fieldB w) (fieldC w)) := by
  intro w hw
  have hop : (opcodeField w).toNat = 2 := opcode_of_mask hw
  simp only [decode, hop]

theorem exec_sstore_of_invalid {a b : Reg} {s : State} (h : s.validAccess (s.reg a) (s.reg b) = false) (c : Reg) :
    exec (.sstore a b c) s = .next (raiseFault .dataAddress s) := by
  rcases exec_sstore_cases a b c s with ⟨hv, -⟩ | ⟨-, e⟩
  · simp [h] at hv
  · exact e

/-- Settles O24: a valid store is one word write, which keeps every live bit and length, and any other is the fault. -/
theorem sstoreWritesOrFaults : Obligations.SstoreWritesOrFaults := by
  refine ⟨selectedBy_sstore, fun a b c s => ⟨rfl, fun hvalid => ?writes, fun hinvalid => ?faults⟩⟩
  case writes =>
    refine ⟨_, exec_sstore_of_valid ((validAccess_iff _ _ _).2 hvalid) c, ?written, fun id i hne => ?others,
      fun id => ⟨?live, ?len⟩, rfl⟩
    case written => rw [advance_word, word_setWord, if_pos ⟨rfl, rfl⟩]
    case others => rw [advance_word, word_setWord, if_neg hne]
    case live => rw [advance_live, live_setWord]
    case len => rw [advance_len, len_setWord]
  case faults => exact ⟨_, exec_sstore_of_invalid ((validAccess_eq_false_iff _ _ _).2 hinvalid) c, rfl⟩

end Sys2Proof.Machine

/-! PROOFS. Arithmetic and logic (R94 to R98). -/

namespace Sys2Proof.Machine

/-! ### The words of an opcode -/

/-- The pattern of an opcode selects a form that the decoder reads from every word of that opcode. -/
theorem selectedBy_of_opcode {p : Word} {form : Word → Instr} (op : Nat) (hp : p.toNat / 2 ^ 28 = op)
    (h : ∀ w, (opcodeField w).toNat = op → decode w = .ok (form w)) : SelectedBy p form :=
  fun w hw => h w ((opcode_of_mask hw).trans hp)

theorem selectedBy_add : SelectedBy 0x30000000 (fun w => .add (fieldA w) (fieldB w) (fieldC w)) :=
  selectedBy_of_opcode 3 rfl fun w hop => by simp only [decode, hop]

theorem selectedBy_mul : SelectedBy 0x40000000 (fun w => .mul (fieldA w) (fieldB w) (fieldC w)) :=
  selectedBy_of_opcode 4 rfl fun w hop => by simp only [decode, hop]

theorem selectedBy_div : SelectedBy 0x50000000 (fun w => .div (fieldA w) (fieldB w) (fieldC w)) :=
  selectedBy_of_opcode 5 rfl fun w hop => by simp only [decode, hop]

theorem selectedBy_nand : SelectedBy 0x60000000 (fun w => .nand (fieldA w) (fieldB w) (fieldC w)) :=
  selectedBy_of_opcode 6 rfl fun w hop => by simp only [decode, hop]

/-! ### The four operations -/

theorem exec_add (a b c : Reg) (s : State) :
    exec (.add a b c) s = .next ((s.setReg a (s.reg b + s.reg c)).advance 3) := by
  rw [← sumWord_eq]; rfl

theorem exec_mul (a b c : Reg) (s : State) :
    exec (.mul a b c) s = .next ((s.setReg a (s.reg b * s.reg c)).advance 4) := by
  rw [← productWord_eq]; rfl

theorem exec_div_of_ne_zero {c : Reg} {s : State} (h : s.reg c ≠ 0) (a b : Reg) :
    exec (.div a b c) s = .next ((s.setReg a (s.reg b / s.reg c)).advance 5) := by
  rcases exec_div_cases a b c s with ⟨-, e⟩ | ⟨h0, -⟩
  · rw [e, ← BitVec.udiv_def]
  · exact absurd h0 h

theorem exec_div_of_zero {c : Reg} {s : State} (h : s.reg c = 0) (a b : Reg) :
    exec (.div a b c) s = .next (raiseFault .divideByZero s) := by
  rcases exec_div_cases a b c s with ⟨hne, -⟩ | ⟨-, e⟩
  · exact absurd h hne
  · exact e

theorem exec_nand (a b c : Reg) (s : State) :
    exec (.nand a b c) s = .next ((s.setReg a (~~~(s.reg b &&& s.reg c))).advance 6) := by
  rw [← nandWord_eq]; rfl

/-- An instruction that writes `v` to one register and advances leaves `v` there, and changes nothing else but the pc,
LAST_OP and LAST_VALID. -/
theorem exists_next_of_write {i : Instr} {s : State} {a : Reg} {v : Word} {op : BitVec 4}
    (h : exec i s = .next ((s.setReg a v).advance op)) :
    ∃ t, exec i s = .next t ∧ t.reg a = v ∧ RegsExcept [a] s t ∧ t.pc = s.pc + 1 ∧ CompletedInRegs op s t :=
  ⟨_, h, by rw [advance_reg, reg_setReg, if_pos rfl], regsExcept_setReg_advance _ _ _ _, rfl,
    completedInRegs_setReg_advance _ _ _ _⟩

/-- Settles O25: `add` is one register write, of the 32-bit sum. -/
theorem addWrapsModulo : Obligations.AddWrapsModulo := by
  refine ⟨selectedBy_add, fun a b c s => ⟨rfl, ?_⟩⟩
  obtain ⟨t, he, hresult, hframe⟩ := exists_next_of_write (exec_add a b c s)
  exact ⟨t, he, by rw [hresult, BitVec.toNat_add], hframe⟩

/-- Settles O26: `mul` is one register write, of the 32-bit product. -/
theorem mulWrapsModulo : Obligations.MulWrapsModulo := by
  refine ⟨selectedBy_mul, fun a b c s => ⟨rfl, ?_⟩⟩
  obtain ⟨t, he, hresult, hframe⟩ := exists_next_of_write (exec_mul a b c s)
  exact ⟨t, he, by rw [hresult, BitVec.toNat_mul], hframe⟩

/-- Settles O27: `div` is one register write, of the unsigned quotient, or the fault of a zero divisor. -/
theorem divDividesOrFaults : Obligations.DivDividesOrFaults := by
  refine ⟨selectedBy_div, fun a b c s => ⟨rfl, fun hne => ?divides, fun h0 => ?faults⟩⟩
  case divides =>
    obtain ⟨t, he, hresult, hframe⟩ := exists_next_of_write (exec_div_of_ne_zero hne a b)
    exact ⟨t, he, by rw [hresult, BitVec.toNat_udiv], hframe⟩
  case faults => exact ⟨_, exec_div_of_zero h0 a b, rfl⟩

/-- Settles O28: `nand` is one register write, of the complement of the conjunction. -/
theorem nandComplementsConjunction : Obligations.NandComplementsConjunction :=
  ⟨selectedBy_nand, fun a b c s => ⟨rfl, exists_next_of_write (exec_nand a b c s)⟩⟩

/-! ### What the operations combine to (R98) -/

theorem nandWord_self (x : Word) : nandWord x x = ~~~x := by
  rw [nandWord_eq, BitVec.and_self]

/-- Settles O52: a nand of a word with itself is its complement, so the difference is two's complement addition, the
conjunction a double complement and the disjunction De Morgan's law. -/
theorem integerLawsOfTheUnit : Obligations.IntegerLawsOfTheUnit := by
  refine fun a b => ⟨nandWord_self b, ?difference, ?conjunction, ?disjunction⟩
  case difference =>
    calc sumWord (sumWord a (nandWord b b)) 1
        = a + (~~~b + 1#32) := by rw [nandWord_self, sumWord_eq, sumWord_eq, BitVec.add_assoc]; rfl
      _ = a - b := by rw [← BitVec.neg_eq_not_add, BitVec.sub_eq_add_neg]
  case conjunction => rw [nandWord_self, nandWord_eq, BitVec.not_not]
  case disjunction => rw [nandWord_self, nandWord_self, nandWord_eq, BitVec.not_and, BitVec.not_not, BitVec.not_not]

end Sys2Proof.Machine

/-! PROOFS. Halt (R99). -/

namespace Sys2Proof.Machine

theorem selectedBy_halt : SelectedBy 0x70000000 (fun _ => .halt) :=
  selectedBy_of_opcode 7 rfl fun w hop => by simp only [decode, hop]

theorem encode_halt : encode .halt = 0x70000000 := by decide

/-- `halt` completes with opcode 7 at the pc of the halt word itself, and the unit is HALTED. -/
theorem exec_halt (s : State) : exec .halt s = .next { s.complete 7 s.pc with run := .halted } := rfl

/-- Settles O29: a completion that writes back the pc it found changes only LAST_OP and LAST_VALID besides STATE. -/
theorem haltStopsWithoutAdvance : Obligations.HaltStopsWithoutAdvance :=
  ⟨selectedBy_halt, encode_halt, fun s => ⟨_, exec_halt s, rfl⟩⟩

end Sys2Proof.Machine

/-! PROOFS. Map and unmap (R101, R102), and the order in which identifiers are reused (R103). -/

namespace Sys2Proof.Machine

/-! ### Map -/

theorem selectedBy_map : SelectedBy 0x80000000 (fun w => .map (fieldB w) (fieldC w)) :=
  selectedBy_of_opcode 8 rfl fun w hop => by simp only [decode, hop]

section
variable (s : State) (id n : Nat)

/-- The segment `Map` binds is live. -/
theorem live_afterMap_self : (s.afterMap id n).live id = true := (live_afterMap s id n id).2 (.inl rfl)

/-- The segment `Map` binds has the length asked for. -/
theorem len_afterMap_self : (s.afterMap id n).len id = n := by
  rw [State.len, slot_afterMap, if_pos rfl]
  rfl

/-- The words of the segment `Map` binds: those at or past its length stay, those below are 0 (R56). -/
theorem word_afterMap_self (i : Nat) : (s.afterMap id n).word id i = if n ≤ i then s.word id i else 0 := by
  rw [State.word, slot_afterMap, if_pos rfl, Slot.word_mapped]
  rfl

theorem word_afterMap_eq_zero {n i : Nat} (hi : i < n) : (s.afterMap id n).word id i = 0 := by
  rw [word_afterMap_self, if_neg (Nat.not_le.2 hi)]

end

/-- Where the identifier `Map` binds comes from, and what is left: the top of the pool, which loses it, or `next_free`,
which grows. -/
theorem afterMap_source {s : State} {id : Nat} (ht : s.mapTarget = some id) (n : Nat) :
    (∃ rest, s.pool = id :: rest ∧ (s.afterMap id n).pool = rest ∧ (s.afterMap id n).nextFree = s.nextFree) ∨
      (s.pool = [] ∧ id = s.nextFree ∧ (s.afterMap id n).pool = [] ∧
        (s.afterMap id n).nextFree = s.nextFree + 1) := by
  rcases (mapTarget_eq_some s id).1 ht with ⟨rest, hp⟩ | ⟨hp, -, hid⟩
  · obtain ⟨hnext, hpool⟩ := afterMap_of_pool hp n
    exact .inl ⟨rest, hp, hpool, hnext⟩
  · obtain ⟨hnext, hpool⟩ := afterMap_of_empty_pool hp id n
    exact .inr ⟨hp, hid, hpool, hnext⟩

/-- The segments `Map` does not bind stay. -/
theorem sameSegment_afterMap (s : State) {id j : Nat} (hj : j ≠ id) (n : Nat) : SameSegment s (s.afterMap id n) j :=
  sameSegment_of_slot (by rw [slot_afterMap, if_neg hj])

/-- A `map` completes when it has an identifier whose slot has room. -/
theorem exec_map_of_target {c : Reg} {s : State} {id : Nat} (ht : s.mapTarget = some id)
    (hn : (s.reg c).toNat ≤ capacity s.cfg id) (b : Reg) :
    exec (.map b c) s = .next (((s.afterMap id (s.reg c).toNat).setReg b (BitVec.ofNat 32 id)).advance 8) := by
  rcases exec_map_cases b c s with ⟨id', ht', -, e⟩ | ⟨hfull, -⟩
  · cases ht.symm.trans ht'
    exact e
  · exact absurd (hfull id ht) (Nat.not_lt.2 hn)

/-- A `map` faults when it has no identifier whose slot has room. -/
theorem exec_map_of_no_room {c : Reg} {s : State}
    (h : ∀ id, s.mapTarget = some id → capacity s.cfg id < (s.reg c).toNat) (b : Reg) :
    exec (.map b c) s = .next (raiseFault .allocation s) := by
  rcases exec_map_cases b c s with ⟨id, ht, hn, -⟩ | ⟨-, e⟩
  · exact absurd (h id ht) (Nat.not_lt.2 hn)
  · exact e

/-- The two causes of ALLOCATION leave no identifier whose slot has room: `Map` never chooses slot 0, so the room is
SEG_CAP. -/
theorem mapTarget_no_room {s : State} (hinv : ControllerInv s) {n : Nat}
    (h : (s.pool = [] ∧ s.nextFree = s.cfg.nseg) ∨ s.cfg.segCap < n) :
    ∀ id, s.mapTarget = some id → capacity s.cfg id < n := by
  intro id ht
  rcases h with ⟨hempty, hall⟩ | hlarge
  · rcases (mapTarget_eq_some s id).1 ht with ⟨rest, hp⟩ | ⟨-, hlt, -⟩
    · simp [hempty] at hp
    · omega
  · rw [capacity_of_ne_zero (mapTarget_of_inv hinv ht).1]
    exact hlarge

/-- Settles O30: the identifier `Map` chooses is bound and written, and fits the register because it is below NSEG;
where no choice has room the instruction faults. -/
theorem mapBindsZeroedSegmentOrFaults : Obligations.MapBindsZeroedSegmentOrFaults := by
  refine ⟨selectedBy_map, fun b c s hinv => ⟨rfl, fun havail hroom => ?binds, fun hnone => ?faults⟩⟩
  case binds =>
    obtain ⟨id, ht⟩ := exists_mapTarget havail
    obtain ⟨h0, hnseg, hfits, -⟩ := mapTarget_of_inv hinv ht
    have he := exec_map_of_target ht (hroom.trans_eq (capacity_of_ne_zero h0).symm) b
    refine ⟨id, _, he, afterMap_source ht (s.reg c).toNat, h0, hnseg, ?written,
      regsExcept_setReg_advance (s.afterMap id _) b _ 8, live_afterMap_self s id _, len_afterMap_self s id _,
      fun i hi => word_afterMap_eq_zero s id hi, fun i hi => ?kept, fun j hj => sameSegment_afterMap s hj _, rfl⟩
    case written => rw [advance_reg, reg_setReg, if_pos rfl, BitVec.toNat_ofNat, Nat.mod_eq_of_lt hfits]
    case kept => rw [advance_word, setReg_word, word_afterMap_self, if_pos hi]
  case faults => exact ⟨_, exec_map_of_no_room (mapTarget_no_room hinv hnone) b, rfl⟩

/-! ### Unmap -/

theorem selectedBy_unmap : SelectedBy 0x90000000 (fun w => .unmap (fieldC w)) :=
  selectedBy_of_opcode 9 rfl fun w hop => by simp only [decode, hop]

section
variable (s : State) (id : Nat)

/-- The segment `Unmap` retires is not live. -/
theorem live_afterUnmap_self : (s.afterUnmap id).live id = false := by
  rw [State.live, slot_afterUnmap, if_pos rfl]

/-- The segment `Unmap` retires keeps its length. -/
theorem len_afterUnmap_self : (s.afterUnmap id).len id = s.len id := by
  rw [State.len, slot_afterUnmap, if_pos rfl]
  rfl

/-- The segment `Unmap` retires keeps its words. -/
theorem word_afterUnmap_self (i : Nat) : (s.afterUnmap id).word id i = s.word id i := by
  rw [State.word, slot_afterUnmap, if_pos rfl]
  rfl

/-- The segments `Unmap` does not retire stay. -/
theorem sameSegment_afterUnmap {j : Nat} (hj : j ≠ id) : SameSegment s (s.afterUnmap id) j :=
  sameSegment_of_slot (by rw [slot_afterUnmap, if_neg hj])

end

section
variable {c : Reg} {s : State}

theorem exec_unmap_of_unissued (h : s.nextFree ≤ (s.reg c).toNat) :
    exec (.unmap c) s = .next (raiseFault .unmapOutOfRange s) := by
  rcases exec_unmap_cases c s with ⟨hlt, -⟩ | ⟨-, e⟩ | ⟨hlt, -⟩ | ⟨hlt, -⟩
  · omega
  · exact e
  · omega
  · omega

/-- Identifier 0 is issued from reset on, so its `unmap` takes the second fault (R31, R57). -/
theorem exec_unmap_of_zero (hinv : ControllerInv s) (h : (s.reg c).toNat = 0) :
    exec (.unmap c) s = .next (raiseFault .unmapZero s) := by
  have hpos := hinv.next_pos
  rcases exec_unmap_cases c s with ⟨-, hne, -⟩ | ⟨hle, -⟩ | ⟨-, -, e⟩ | ⟨-, hne, -⟩
  · exact absurd h hne
  · omega
  · exact e
  · exact absurd h hne

/-- An identifier in the pool is issued, not 0 and not live, so its `unmap` takes the third fault. -/
theorem exec_unmap_of_pooled (hinv : ControllerInv s) (h : (s.reg c).toNat ∈ s.pool) :
    exec (.unmap c) s = .next (raiseFault .unmapNotLive s) := by
  obtain ⟨hne, hissued⟩ := hinv.issue.pool_issued _ h
  rcases exec_unmap_cases c s with ⟨-, -, hlive, -⟩ | ⟨hle, -⟩ | ⟨-, h0, -⟩ | ⟨-, -, -, e⟩
  · exact absurd h ((hinv.issue.live_iff _).1 hlive).2
  · omega
  · exact absurd h0 hne
  · exact e

end

/-- Settles O31: an issued identifier is live or in the pool, so each `unmap` is of exactly one of the four kinds. -/
theorem unmapRetiresOrFaults : Obligations.UnmapRetiresOrFaults := by
  refine ⟨selectedBy_unmap, fun c s hinv => ⟨rfl, ?retires, ?outOfRange, ?zero, ?notLive⟩⟩
  case retires =>
    rintro ⟨hissued, hne, hunpooled⟩
    have hne : (s.reg c).toNat ≠ 0 := fun h => hne (BitVec.eq_of_toNat_eq h)
    have he := exec_unmap_of_live hinv hne ((hinv.issue.live_iff _).2 ⟨hissued, hunpooled⟩)
    exact ⟨_, he, live_afterUnmap_self s _, rfl, len_afterUnmap_self s _, word_afterUnmap_self s _,
      fun j hj => sameSegment_afterUnmap s _ hj, rfl⟩
  case outOfRange => exact fun h => ⟨_, exec_unmap_of_unissued h, rfl⟩
  case zero => exact fun h => ⟨_, exec_unmap_of_zero hinv (by simp [h]), rfl⟩
  case notLive => exact fun h => ⟨_, exec_unmap_of_pooled hinv h, rfl⟩

/-! ### The order of reuse (R103) -/

/-- An `unmap` that ends RUNNING has completed. -/
theorem eq_of_exec_unmap_running {c : Reg} {s t : State} (h : exec (.unmap c) s = .next t) (hr : t.run = .running) :
    t = (s.afterUnmap (s.reg c).toNat).advance 9 := by
  rcases exec_unmap_cases c s with ⟨-, -, -, e⟩ | ⟨-, e⟩ | ⟨-, -, e⟩ | ⟨-, -, -, e⟩ <;> cases h.symm.trans e
  · rfl
  all_goals cases hr

/-- A `map` that ends RUNNING has completed. -/
theorem eq_of_exec_map_running {b c : Reg} {s t : State} (h : exec (.map b c) s = .next t) (hr : t.run = .running) :
    ∃ id, s.mapTarget = some id ∧
      t = ((s.afterMap id (s.reg c).toNat).setReg b (BitVec.ofNat 32 id)).advance 8 := by
  rcases exec_map_cases b c s with ⟨id, ht, -, e⟩ | ⟨-, e⟩ <;> cases h.symm.trans e
  · exact ⟨id, ht, rfl⟩
  · cases hr

/-- A completed `unmap` pushes its identifier on the pool and keeps `next_free` and the registers. -/
theorem unmap_pushes_pool {c : Reg} {s t : State} (h : exec (.unmap c) s = .next t) (hr : t.run = .running) :
    t.pool = (s.reg c).toNat :: s.pool ∧ t.nextFree = s.nextFree ∧ ∀ r, t.reg r = s.reg r := by
  rw [eq_of_exec_unmap_running h hr]
  exact ⟨rfl, rfl, fun _ => rfl⟩

/-- A completed `map` pops the top of the pool, answers it, and makes its segment live with words 0. -/
theorem map_pops_pool {b c : Reg} {s t : State} {v : Word} {rest : List Nat} (hp : s.pool = v.toNat :: rest)
    (h : exec (.map b c) s = .next t) (hr : t.run = .running) :
    t.reg b = v ∧ t.pool = rest ∧ t.nextFree = s.nextFree ∧ t.live v.toNat = true ∧
      ∀ i, i < t.len v.toNat → t.word v.toNat i = 0 := by
  obtain ⟨id, ht, rfl⟩ := eq_of_exec_map_running h hr
  cases ht.symm.trans ((mapTarget_eq_some s v.toNat).2 (.inl ⟨rest, hp⟩))
  obtain ⟨hnext, hpool⟩ := afterMap_of_pool hp (s.reg c).toNat
  refine ⟨?answer, hpool, hnext, live_afterMap_self s _ _, fun i hi => word_afterMap_eq_zero s _ ?below⟩
  case answer => rw [advance_reg, reg_setReg, if_pos rfl, BitVec.ofNat_toNat, BitVec.setWidth_eq]
  case below => simpa [len_afterMap_self] using hi

/-- Settles O50: the two `unmap`s push their identifiers, and the two `map`s pop them in the opposite order. -/
theorem reuseIsLastFreedFirst : Obligations.ReuseIsLastFreedFirst := by
  intro c d b e n m s s₁ s₂ s₃ s₄ _ hc hr₁ hd hr₂ hb hr₃ he hr₄
  obtain ⟨hpool₁, hnext₁, hreg₁⟩ := unmap_pushes_pool hc hr₁
  obtain ⟨hpool₂, hnext₂, -⟩ := unmap_pushes_pool hd hr₂
  rw [hpool₁, hreg₁] at hpool₂
  obtain ⟨hb, hpool₃, hnext₃, hlive₃, hzero₃⟩ := map_pops_pool hpool₂ hb hr₃
  obtain ⟨he, hpool₄, hnext₄, hlive₄, hzero₄⟩ := map_pops_pool hpool₃ he hr₄
  have hnext : s₄.nextFree = s.nextFree := by rw [hnext₄, hnext₃, hnext₂, hnext₁]
  exact ⟨hb, he, hpool₄, hnext, hlive₃, hzero₃, hlive₄, hzero₄⟩

end Sys2Proof.Machine

/-! PROOFS. Output and input (R104 to R107). -/

namespace Sys2Proof.Machine

/-! ### Output -/

theorem selectedBy_out : SelectedBy 0xA0000000 (fun w => .out (fieldC w)) :=
  selectedBy_of_opcode 10 rfl fun w hop => by simp only [decode, hop]

/-- A value that `out` accepts is the value of the byte it emits. -/
theorem toNat_emitted_byte {n : Nat} (h : n ≤ 255) : (BitVec.ofNat 8 n).toNat = n := by
  rw [BitVec.toNat_ofNat, Nat.mod_eq_of_lt (Nat.lt_succ_of_le h)]

/-- Settles O32: the two outcomes of `out` are the two clauses, told apart by the bound 255. -/
theorem outEmitsByteOrFaults : Obligations.OutEmitsByteOrFaults := by
  refine ⟨selectedBy_out, fun c s => ⟨rfl, ?_⟩⟩
  rcases exec_out_cases c s with ⟨hle, e⟩ | ⟨hgt, e⟩
  · exact ⟨fun _ => ⟨_, _, e, toNat_emitted_byte hle, rfl⟩, fun hgt => absurd hgt (Nat.not_lt.2 hle)⟩
  · exact ⟨fun hle => absurd hgt (Nat.not_lt.2 hle), fun _ => ⟨_, e, rfl⟩⟩

/-! ### Input -/

theorem selectedBy_inp : SelectedBy 0xB0000000 (fun w => .inp (fieldC w)) :=
  selectedBy_of_opcode 11 rfl fun w hop => by simp only [decode, hop]

theorem exec_inp (c : Reg) (s : State) : exec (.inp c) s = .next (s.beginWait.answerInput c s.nextItem) := rfl

/-- Before the end of the input the next item is the byte at the position. -/
theorem nextItem_of_lt {s : State} (h : s.inPos < s.inSeq.length) : s.nextItem = .byte s.inSeq[s.inPos] := by
  rw [State.nextItem, List.getElem?_eq_getElem h]

/-- At and past the end of the input the next item is EOF, for ever (R106). -/
theorem nextItem_of_length_le {s : State} (h : s.inSeq.length ≤ s.inPos) : s.nextItem = .eof := by
  rw [State.nextItem, List.getElem?_eq_none h]

/-- A byte is zero-extended, so it keeps its value (R105). -/
theorem toNat_value_byte (b : Byte) : (InputItem.byte b).value.toNat = b.toNat := by
  rw [InputItem.value, BitVec.toNat_ofNat, Nat.mod_eq_of_lt (b.isLt.trans (by decide))]

/-- The answer to an `in` writes the item's value to the destination and no other register. -/
theorem reg_answerInput (s : State) (c r : Reg) (item : InputItem) :
    (s.answerInput c item).reg r = if r = c then item.value else s.reg r :=
  RegFile.get_set s.regs c r item.value

/-- The `in` that the unit is at equals its wait answered with the next item: each is the step of the unit. -/
theorem exec_inp_of_request {s : State} {c : Reg} (h : s.inputRequest = some c) :
    exec (.inp c) s = .next (hostAct (.offer s.nextItem) s.enterWait) := by
  obtain ⟨hr, w, hf, hd⟩ := inputRequest_eq_some h
  rw [← step_of_decode hr hf hd]
  exact (offeredItemCompletesInput.1 s c h).2.1

/-- Settles O33: `in` is one register write, of the value of the next item, and the wait is that of
`offeredItemCompletesInput`. -/
theorem inReceivesNextItem : Obligations.InReceivesNextItem := by
  refine ⟨selectedBy_inp, fun c s => ⟨rfl,
    ⟨_, exec_inp c s, fun hlt => ?byte, fun hle => ?eof, fun r hr => ?others, rfl⟩,
    fun hq => ⟨enterWait_of_request hq, ?running, exec_inp_of_request hq⟩⟩⟩
  case byte => rw [reg_answerInput, if_pos rfl, nextItem_of_lt hlt, toNat_value_byte]
  case eof => rw [reg_answerInput, if_pos rfl, nextItem_of_length_le hle]; rfl
  case others => rw [reg_answerInput, if_neg (by simpa using hr)]; rfl
  case running => rw [enterWait_of_request hq]; exact (inputRequest_eq_some hq).1

/-! ### The output record -/

/-- No instruction but `out` changes the output record (R107). -/
theorem exec_outSeq {i : Instr} {s t : State} (hi : ∀ c, i ≠ .out c) (h : exec i s = .next t) :
    t.outSeq = s.outSeq := by
  have hkept : ∀ {u : State}, exec i s = .next u → u.outSeq = s.outSeq → t.outSeq = s.outSeq :=
    fun hu hout => by cases h.symm.trans hu; exact hout
  cases i with
  | out c => exact absurd rfl (hi c)
  | cmov a b c => exact hkept (exec_cmov a b c s) rfl
  | add | mul | nand | halt | inp | li => exact hkept rfl rfl
  | sload a b c => rcases exec_sload_cases a b c s with ⟨-, e⟩ | ⟨-, e⟩ <;> exact hkept e rfl
  | sstore a b c => rcases exec_sstore_cases a b c s with ⟨-, e⟩ | ⟨-, e⟩ <;> exact hkept e rfl
  | div a b c => rcases exec_div_cases a b c s with ⟨-, e⟩ | ⟨-, e⟩ <;> exact hkept e rfl
  | map b c => rcases exec_map_cases b c s with ⟨id, -, -, e⟩ | ⟨-, e⟩ <;> exact hkept e rfl
  | unmap c =>
    rcases exec_unmap_cases c s with ⟨-, -, -, e⟩ | ⟨-, e⟩ | ⟨-, -, e⟩ | ⟨-, -, -, e⟩ <;> exact hkept e rfl
  | loadprog b c =>
    rcases exec_loadprog_cases b c s with ⟨-, e⟩ | ⟨-, -, -, e⟩ | ⟨-, -, e⟩ <;> exact hkept e rfl

/-- No transaction of the host but RESET changes the output record (R107). -/
theorem hostAct_outSeq {a : HostAction} (ha : a ≠ .reset) (s : State) : (hostAct a s).outSeq = s.outSeq := by
  have hkept : ∀ {u : State}, hostAct a s = u → u.outSeq = s.outSeq → (hostAct a s).outSeq = s.outSeq :=
    fun hu hout => by rw [hu]; exact hout
  cases a with
  | reset => exact absurd rfl ha
  | load w => rcases hostLoad_cases w s with ⟨-, -, e⟩ | ⟨-, -, e⟩ | ⟨-, e⟩ <;> exact hkept e rfl
  | start => rcases hostStart_cases s with ⟨-, e⟩ | ⟨-, e⟩ <;> exact hkept e rfl
  | readStatus addr => rfl
  | offer item => rcases hostOffer_cases item s with ⟨c, -, -, e⟩ | e <;> exact hkept e rfl

/-- Settles O45, by the things a step can be: a fault of the unit, an `out` that completes or faults, or another
instruction. -/
theorem outputGrowsOnlyByOut : Obligations.OutputGrowsOnlyByOut := by
  refine ⟨fun s t h => ?_, fun a s ha => hostAct_outSeq ha s⟩
  obtain ⟨hr, ⟨-, rfl⟩ | ⟨w, -, -, rfl⟩ | ⟨w, i, hf, hd, -, he⟩⟩ := step_cases h
  · exact .inr ⟨rfl, fun _ _ => rfl⟩
  · exact .inr ⟨rfl, fun _ _ => rfl⟩
  rw [fetchedWord_of_fetch hf]
  by_cases hout : ∃ c, i = .out c
  · obtain ⟨c, rfl⟩ := hout
    rcases exec_out_cases c s with ⟨hle, e⟩ | ⟨-, e⟩ <;> cases he.symm.trans e
    · exact .inl ⟨c, hd, hr, _, rfl, toNat_emitted_byte hle⟩
    · exact .inr ⟨rfl, fun _ _ => rfl⟩
  · have hother : ∀ c, i ≠ .out c := not_exists.1 hout
    refine .inr ⟨exec_outSeq hother he, fun c hc => ?_⟩
    cases hd.symm.trans hc
    exact absurd rfl (hother c)

end Sys2Proof.Machine

/-! PROOFS. Load program (R108 to R110), and what changes the program in segment 0. -/

namespace Sys2Proof.Machine

/-! ### What an install leaves in memory (R58) -/

/-- Replacing a slot leaves the other segments. -/
theorem sameSegment_setSlot (s : State) {k j : Nat} (hj : j ≠ k) (x : Slot) : SameSegment s (s.setSlot k x) j :=
  sameSegment_of_slot (by rw [slot_setSlot, if_neg hj])

/-- The state after `Install` has copied segment `id` into segment 0 (R58). -/
def State.afterInstall (s : State) (id : Nat) : State := s.setSlot 0 ((s.slot 0).installed (s.slot id))

section
variable (s : State) (id : Nat)

theorem live_zero_afterInstall : (s.afterInstall id).live 0 = s.live 0 := by
  rw [State.afterInstall, live_setSlot, if_pos rfl]
  rfl

theorem len_zero_afterInstall : (s.afterInstall id).len 0 = s.len id := len_zero_setSlot_installed s id

/-- Segment 0 takes the words below the length of the segment installed, and keeps those at and past it. -/
theorem word_zero_afterInstall (i : Nat) :
    (s.afterInstall id).word 0 i = if i < s.len id then s.word id i else s.word 0 i := by
  rw [State.afterInstall, word_setSlot, if_pos rfl, Slot.word_installed]
  rfl

theorem sameSegment_afterInstall {j : Nat} (hj : j ≠ 0) : SameSegment s (s.afterInstall id) j :=
  sameSegment_setSlot s hj _

end

/-- The length of every segment fits into slot 0: no slot is larger (R8, R30). -/
theorem ControllerInv.len_le_seg0Cap {s : State} (h : ControllerInv s) (id : Nat) : s.len id ≤ s.cfg.seg0Cap :=
  (h.len_le id).trans (h.capacity_le id)

/-! ### The instruction -/

theorem selectedBy_loadprog : SelectedBy 0xC0000000 (fun w => .loadprog (fieldB w) (fieldC w)) :=
  selectedBy_of_opcode 12 rfl fun w hop => by simp only [decode, hop]

theorem word_toNat_eq_zero_iff (x : Word) : x.toNat = 0 ↔ x = 0 := BitVec.toNat_inj (y := 0)

section
variable {b : Reg} {s : State}

/-- A `loadprog` with identifier 0 only jumps (R109). -/
theorem exec_loadprog_of_zero (h : s.reg b = 0) (c : Reg) :
    exec (.loadprog b c) s = .next (s.complete 12 (s.reg c)) := by
  have h := (word_toNat_eq_zero_iff _).2 h
  rcases exec_loadprog_cases b c s with ⟨-, e⟩ | ⟨hne, -⟩ | ⟨hne, -⟩
  · exact e
  · exact absurd h hne
  · exact absurd h hne

/-- A `loadprog` with another live identifier installs it and jumps. -/
theorem exec_loadprog_of_source (h0 : s.reg b ≠ 0) (hn : (s.reg b).toNat < s.cfg.nseg)
    (hl : s.live (s.reg b).toNat = true) (c : Reg) :
    exec (.loadprog b c) s = .next ((s.afterInstall (s.reg b).toNat).complete 12 (s.reg c)) :=
  exec_loadprog_of_live ((word_toNat_eq_zero_iff _).not.2 h0) hn hl c

/-- A `loadprog` with an identifier that is not 0 and names no live segment faults. -/
theorem exec_loadprog_of_no_source (h0 : s.reg b ≠ 0)
    (h : s.cfg.nseg ≤ (s.reg b).toNat ∨ s.live (s.reg b).toNat = false) (c : Reg) :
    exec (.loadprog b c) s = .next (raiseFault .programSource s) := by
  rcases exec_loadprog_cases b c s with ⟨hz, -⟩ | ⟨-, hn, hl, -⟩ | ⟨-, -, e⟩
  · exact absurd ((word_toNat_eq_zero_iff _).1 hz) h0
  · rcases h with hle | hdead
    · omega
    · simp [hl] at hdead
  · exact e

end

/-- Settles O35: a completion writes the pc and records the opcode. -/
theorem loadprogJumpsWithinProgram : Obligations.LoadprogJumpsWithinProgram :=
  fun _ c _ h => exec_loadprog_of_zero h c

/-- Settles O34, by whether the identifier is 0 and whether it names a live segment. -/
theorem loadprogInstallsAndJumpsOrFaults : Obligations.LoadprogInstallsAndJumpsOrFaults := by
  refine ⟨selectedBy_loadprog, fun b c s => ⟨rfl, fun hsource => ?completes, fun ⟨h0, hdead⟩ => ?faults⟩⟩
  case completes =>
    by_cases h0 : s.reg b = 0
    · exact ⟨_, exec_loadprog_of_zero h0 c, fun _ => rfl, fun hne => absurd h0 hne, rfl⟩
    · obtain ⟨hn, hl⟩ := hsource.resolve_left h0
      exact ⟨_, exec_loadprog_of_source h0 hn hl c, fun hz => absurd hz h0,
        fun _ => ⟨live_zero_afterInstall s _, len_zero_afterInstall s _,
          fun i hi => (word_zero_afterInstall s _ i).trans (if_pos hi),
          fun i hi => (word_zero_afterInstall s _ i).trans (if_neg (Nat.not_lt.2 hi)),
          fun _ hj => sameSegment_afterInstall s _ hj⟩, rfl⟩
  case faults => exact ⟨_, exec_loadprog_of_no_source h0 hdead c, rfl⟩

/-- Settles O36: the install gives segment 0 the source's length and words, and the next fetch goes by that length. -/
theorem loadprogReplacesProgram : Obligations.LoadprogReplacesProgram := by
  intro b c s hinv h0 hn hl
  have hlen := len_zero_afterInstall s (s.reg b).toNat
  refine ⟨_, exec_loadprog_of_source h0 hn hl c, (live_zero_afterInstall s _).trans hinv.live_zero, hlen,
    fun i hi => (word_zero_afterInstall s _ i).trans (if_pos hi), fun _ hj => sameSegment_afterInstall s _ hj,
    hlen.le.trans (hinv.len_le_seg0Cap _), fun hlt => ?inside, fun hle => ?outside⟩
  case inside =>
    rw [fetch_of_pc_lt (hlt.trans_eq hlen.symm)]
    exact congrArg _ ((word_zero_afterInstall s _ _).trans (if_pos hlt))
  case outside => exact fetch_of_len_le (hlen.le.trans hle)

/-! ### What changes segment 0 -/

/-- What a segment reads as is a matter of memory alone. -/
theorem SameSegment.of_mem {s t u : State} {id : Nat} (h : SameSegment s u id) (hm : t.mem = u.mem) :
    SameSegment s t id := by
  have hslot : t.slot id = u.slot id := by unfold State.slot; rw [hm]
  obtain ⟨hlive, hlen, hword⟩ := h
  obtain ⟨hlive', hlen', hword'⟩ := sameSegment_of_slot hslot
  exact ⟨hlive'.trans hlive, hlen'.trans hlen, fun i => (hword' i).trans (hword i)⟩

/-- Settles O43: with the invariant no `map` binds segment 0, an `unmap` never retires it, and a store to another
segment leaves it. -/
theorem programChangesOnlyByStoreOrInstall : Obligations.ProgramChangesOnlyByStoreOrInstall := by
  intro i s t hinv he hchanged
  rcases exec_memory_cases he with ⟨hm, -⟩ | ⟨a, b, c, hi, -, hm, -⟩ | ⟨b, c, id, -, ht, -, hm, -⟩ |
    ⟨c, -, -, hne, -, hm, -⟩ | ⟨b, c, hi, hne, -⟩
  · exact absurd (SameSegment.of_mem (sameSegment_of_slot rfl) hm) hchanged
  · refine .inl ⟨a, b, c, hi, ?_⟩
    by_contra ha
    have hother : (s.reg a).toNat ≠ 0 := (word_toNat_eq_zero_iff _).not.2 ha
    exact hchanged (.of_mem (sameSegment_setSlot s hother.symm _) hm)
  · exact absurd (.of_mem (sameSegment_afterMap s (mapTarget_of_inv hinv ht).1.symm _) hm) hchanged
  · exact absurd (.of_mem (sameSegment_afterUnmap s _ hne.symm) hm) hchanged
  · exact .inr ⟨b, c, hi, (word_toNat_eq_zero_iff _).not.1 hne⟩

end Sys2Proof.Machine

/-! PROOFS. The load immediate (R111) and the faults an instruction may raise (R115). -/

namespace Sys2Proof.Machine

theorem selectedBy_li : SelectedBy 0xD0000000 (fun w => .li (fieldDest w) (fieldImm w)) :=
  selectedBy_of_opcode 13 rfl fun w hop => by simp only [decode, hop]

/-- Zero-extension keeps the number: 25 bits fit into a word (R75). -/
theorem toNat_immValue (imm : BitVec 25) : (immValue imm).toNat = imm.toNat :=
  (BitVec.toNat_ofNat _ _).trans (Nat.mod_eq_of_lt (imm.isLt.trans (by decide)))

theorem exec_li (a : Reg) (imm : BitVec 25) (s : State) :
    exec (.li a imm) s = .next ((s.setReg a (immValue imm)).advance 13) := rfl

/-- Settles O37: `li` is one register write, of the zero-extended immediate. -/
theorem liLoadsZeroExtendedImmediate : Obligations.LiLoadsZeroExtendedImmediate := by
  refine ⟨selectedBy_li, fun a imm s => ⟨rfl, ?_⟩⟩
  obtain ⟨t, he, hresult, hframe⟩ := exists_next_of_write (exec_li a imm s)
  exact ⟨t, he, by rw [hresult, toNat_immValue], hframe⟩

/-- Settles O39, by the case analysis of `exec_fault_cause` over the instructions. -/
theorem instructionsRaiseOnlyTheirFaults : Obligations.InstructionsRaiseOnlyTheirFaults :=
  fun _ _ _ hr he hf => exec_fault_cause hr he hf

end Sys2Proof.Machine

/-! PROOFS. The host's transactions one by one (R124, R125, R136, R138), the boot order (R140, R141) and the packing of
a program file (R139). -/

namespace Sys2Proof.Machine

/-! ### START and READ_STATUS -/

theorem hostStart_of_idle {s : State} (h : s.run = .idle) : hostStart s = { s with run := .running } := by
  rcases hostStart_cases s with ⟨-, e⟩ | ⟨hn, -⟩
  · exact e
  · exact absurd h hn

theorem hostStart_of_not_idle {s : State} (h : s.run ≠ .idle) : hostStart s = s := by
  rcases hostStart_cases s with ⟨hi, -⟩ | ⟨-, e⟩
  · exact absurd hi h
  · exact e

/-- Settles O10, by whether the unit is IDLE. -/
theorem startOnlyFromIdle : Obligations.StartOnlyFromIdle :=
  fun _ => ⟨hostStart_of_idle, hostStart_of_not_idle⟩

/-- Addresses 0, 1 and 2 are the only status registers (R43). -/
theorem readStatus_of_two_lt (s : State) {addr : Nat} (h : 2 < addr) : s.readStatus addr = 0 :=
  match addr, h with
  | _ + 3, _ => rfl

/-- Settles O11: the three registers by definition, every other address by `readStatus_of_two_lt`. -/
theorem readStatusRegisters : Obligations.ReadStatusRegisters :=
  fun s _ => ⟨rfl, rfl, rfl, rfl, readStatus_of_two_lt s⟩

/-! ### RESET -/

section
variable (s : State)

theorem reg_hostReset (r : Reg) : (hostReset s).reg r = 0 := by cases r <;> rfl

/-- After RESET every slot but 0 is one that memory does not list. -/
theorem slot_hostReset_of_ne_zero {id : Nat} (h : id ≠ 0) : (hostReset s).slot id = Slot.empty :=
  sparseGet_of_absent _ [(0, _)] _ fun _ hp => by rw [List.mem_singleton.1 hp]; exact h.symm

theorem live_hostReset_of_ne_zero {id : Nat} (h : id ≠ 0) : (hostReset s).live id = false := by
  rw [State.live, slot_hostReset_of_ne_zero s h]; rfl

theorem len_hostReset_of_ne_zero {id : Nat} (h : id ≠ 0) : (hostReset s).len id = 0 := by
  rw [State.len, slot_hostReset_of_ne_zero s h]; rfl

end

/-- Settles O7: the registers and the slots that are not listed by the lemmas above, every other field by definition. -/
theorem resetValues : Obligations.ResetValues :=
  ⟨rfl, fun s => ⟨reg_hostReset s, rfl, rfl, rfl,
    fun _ h => ⟨live_hostReset_of_ne_zero s h, len_hostReset_of_ne_zero s h⟩,
    rfl, rfl, rfl, rfl, rfl, rfl, rfl, rfl, rfl, rfl, rfl, rfl⟩⟩

/-! ### LOAD -/

/-- The state after LOAD has appended `w` to segment 0 (R138). -/
def State.afterLoad (s : State) (w : Word) : State :=
  s.setSlot 0 { (s.slot 0).setWord (s.len 0) w with len := s.len 0 + 1 }

section
variable (s : State) (w : Word)

theorem live_zero_afterLoad : (s.afterLoad w).live 0 = s.live 0 := by
  rw [State.afterLoad, live_setSlot, if_pos rfl]
  rfl

theorem len_zero_afterLoad : (s.afterLoad w).len 0 = s.len 0 + 1 := by
  rw [State.afterLoad, len_setSlot, if_pos rfl]

theorem word_zero_afterLoad (i : Nat) : (s.afterLoad w).word 0 i = if i = s.len 0 then w else s.word 0 i := by
  rw [State.afterLoad, word_setSlot, if_pos rfl]
  exact Slot.word_setWord _ _ _ _

theorem sameSegment_afterLoad {id : Nat} (h : id ≠ 0) : SameSegment s (s.afterLoad w) id :=
  sameSegment_setSlot s h _

end

section
variable {s : State} (w : Word)

theorem hostLoad_of_full (hr : s.run = .idle) (h : s.len 0 = s.cfg.seg0Cap) :
    hostLoad w s = { s with run := .faulted, cause := .loadOverflow, faultWord := w } := by
  rcases hostLoad_cases w s with ⟨-, -, e⟩ | ⟨-, hne, -⟩ | ⟨hn, -⟩
  · exact e
  · exact absurd h hne
  · exact absurd hr hn

theorem hostLoad_of_room (hr : s.run = .idle) (h : s.len 0 ≠ s.cfg.seg0Cap) : hostLoad w s = s.afterLoad w := by
  rcases hostLoad_cases w s with ⟨-, hfull, -⟩ | ⟨-, -, e⟩ | ⟨hn, -⟩
  · exact absurd hfull h
  · exact e
  · exact absurd hr hn

theorem hostLoad_of_not_idle (hr : s.run ≠ .idle) : hostLoad w s = s := by
  rcases hostLoad_cases w s with ⟨hi, -⟩ | ⟨hi, -⟩ | ⟨-, e⟩
  · exact absurd hi hr
  · exact absurd hi hr
  · exact e

end

/-- Settles O9: a LOAD overflows, is `afterLoad`, or is ignored. -/
theorem loadAppendsOrOverflows : Obligations.LoadAppendsOrOverflows := by
  refine fun w s => ⟨hostLoad_of_full w, fun hr hroom => ?appends, hostLoad_of_not_idle w⟩
  case appends =>
    rw [hostAct, hostLoad_of_room w hr hroom]
    exact ⟨rfl, len_zero_afterLoad s w, (word_zero_afterLoad s w _).trans (if_pos rfl),
      fun _ hi => (word_zero_afterLoad s w _).trans (if_neg hi), live_zero_afterLoad s w,
      fun _ h => sameSegment_afterLoad s w h⟩

/-! ### The boot order -/

/-- `t` is `s` but for memory, in which segment 0 holds exactly the words `ws` and no other segment is live. -/
structure ProgramLoaded (s : State) (ws : List Word) (t : State) : Prop where
  frame : t = { s with mem := t.mem }
  live_zero : t.live 0 = true
  len_zero : t.len 0 = ws.length
  word_zero : ∀ i (h : i < ws.length), t.word 0 i = ws[i]
  others : ∀ id, id ≠ 0 → t.live id = false

theorem programLoaded_hostReset (s : State) : ProgramLoaded (hostReset s) [] (hostReset s) where
  frame := rfl
  live_zero := rfl
  len_zero := rfl
  word_zero := fun i h => absurd h (Nat.not_lt_zero i)
  others := fun _ h => live_hostReset_of_ne_zero s h

section
variable {s t : State} {ws : List Word}

theorem ProgramLoaded.cfg (h : ProgramLoaded s ws t) : t.cfg = s.cfg := by rw [h.frame]
theorem ProgramLoaded.run (h : ProgramLoaded s ws t) : t.run = s.run := by rw [h.frame]
theorem ProgramLoaded.pc (h : ProgramLoaded s ws t) : t.pc = s.pc := by rw [h.frame]
theorem ProgramLoaded.pool (h : ProgramLoaded s ws t) : t.pool = s.pool := by rw [h.frame]
theorem ProgramLoaded.reg (h : ProgramLoaded s ws t) (r : Reg) : t.reg r = s.reg r := by rw [h.frame]; rfl

/-- A LOAD with room left appends its word to the program. -/
theorem ProgramLoaded.hostLoad (h : ProgramLoaded s ws t) (hr : s.run = .idle) (hroom : ws.length < s.cfg.seg0Cap)
    (w : Word) : ProgramLoaded s (ws ++ [w]) (hostLoad w t) := by
  have hnotFull : t.len 0 ≠ t.cfg.seg0Cap := by rw [h.len_zero, h.cfg]; exact hroom.ne
  rw [hostLoad_of_room w (h.run.trans hr) hnotFull]
  refine ⟨?frame, (live_zero_afterLoad t w).trans h.live_zero, ?len, fun i hi => ?word, fun id hid => ?others⟩
  case frame => rw [h.frame]; rfl
  case len => rw [len_zero_afterLoad, h.len_zero, List.length_append, List.length_singleton]
  case word =>
    rw [word_zero_afterLoad, h.len_zero]
    split
    · next hlast => subst hlast; rw [List.getElem_concat_length rfl]
    · next hne =>
      have hlt : i < ws.length := by rw [List.length_append, List.length_singleton] at hi; omega
      rw [h.word_zero i hlt, List.getElem_append_left hlt]
  case others => exact (sameSegment_afterLoad t w hid).1.trans (h.others id hid)

end

/-- The LOADs of a program that fits behind the words already loaded append all of it, in order. -/
theorem ProgramLoaded.loadAll {s : State} (hr : s.run = .idle) :
    ∀ {ws done : List Word} {t : State}, ProgramLoaded s done t → done.length + ws.length ≤ s.cfg.seg0Cap →
      ProgramLoaded s (done ++ ws) (loadAll ws t)
  | [], done, t, h, _ => by rw [List.append_nil]; exact h
  | w :: ws, done, t, h, hfit => by
    rw [List.length_cons] at hfit
    have hone := h.hostLoad hr (by omega) w
    have hall := hone.loadAll hr (ws := ws) (by rw [List.length_append, List.length_singleton]; omega)
    rwa [List.append_assoc, List.singleton_append] at hall

/-- Settles O15: RESET leaves the empty program loaded, each LOAD appends to it, and START changes STATE alone. -/
theorem bootLoadsProgram : Obligations.BootLoadsProgram := by
  intro ws s hfit
  have h : ProgramLoaded (hostReset s) ws (loadAll ws (hostReset s)) :=
    (programLoaded_hostReset s).loadAll rfl ((Nat.zero_add _).trans_le hfit)
  rw [boot, hostStart_of_idle h.run]
  exact ⟨rfl, h.pc, fun r => (h.reg r).trans (reg_hostReset s r), h.live_zero, h.len_zero, h.word_zero, h.others,
    h.pool⟩

/-- Settles O16: segment 0 has length 0, so the pc 0 is at its end. -/
theorem emptyProgramFaultsAtFirstFetch : Obligations.EmptyProgramFaultsAtFirstFetch := by
  intro s
  have hfetch : fetch (boot [] s) = .error .fetchAddress := fetch_of_len_le (Nat.zero_le _)
  exact ⟨_, step_of_fetch_error rfl hfetch, rfl, rfl⟩

/-! ### The packing of a program file -/

/-- The four bytes of a group are the four fields of its word. -/
theorem toNat_packGroup (b0 b1 b2 b3 : Byte) : (packGroup b0 b1 b2 b3).toNat =
    b0.toNat * 2 ^ 24 + b1.toNat * 2 ^ 16 + b2.toNat * 2 ^ 8 + b3.toNat := by
  have h0 := b0.isLt
  have h1 := b1.isLt
  have h2 := b2.isLt
  have h3 := b3.isLt
  unfold packGroup
  iterate 4 rw [toNat_insertUnsigned _ _ _ _ (by omega)]
  simp
  omega

theorem length_pack (b : List Byte) : (pack b).length = (b.length + 3) / 4 := by
  induction b using pack.induct with
  | case1 | case2 | case3 | case4 => simp only [pack, List.length_cons, List.length_nil]
  | case5 a b c d rest ih => simp only [pack, List.length_cons, ih]; omega

/-- Word `g` is made from bytes `4g` to `4g+3`, where the bytes and the words past the end count 0. -/
theorem getD_pack (b : List Byte) (g : Nat) : (pack b).getD g 0 =
    packGroup (b.getD (4 * g) 0) (b.getD (4 * g + 1) 0) (b.getD (4 * g + 2) 0) (b.getD (4 * g + 3) 0) := by
  have hpad : packGroup 0 0 0 0 = 0 := by decide
  induction b using pack.induct generalizing g with
  | case1 => exact hpad.symm
  | case2 | case3 | case4 =>
    cases g with
    | zero => rfl
    | succ g => exact hpad.symm
  | case5 a b c d rest ih =>
    cases g with
    | zero => rfl
    | succ g => exact ih g

/-- Settles O17, group by group. -/
theorem packBuildsBigEndianWords : Obligations.PackBuildsBigEndianWords :=
  fun b => ⟨length_pack b, fun g _ => by rw [getD_pack, toNat_packGroup]⟩

end Sys2Proof.Machine
